-- ==== Sys2Proof/Word.lean ====
section
/-! DEFINITION. The machine's word, the console's byte and the register number (spec 00_scope.md R7, R9). -/

namespace Sys2Proof

/-- A machine word: every register, memory cell, instruction and address is one (R7, R9). -/
abbrev Word := BitVec 16

/-- A console character, and one of the two halves in which the model keeps a cell (R38, log 1). -/
abbrev Byte := BitVec 8

/-- The number of a general register, R0 to R7: a 3-bit field, so every value names a register (R20). -/
abbrev Reg := Fin 8

end Sys2Proof
end

