-- ==== Sys2Proof/Config.lean ====
section
/-! DEFINITION. The implementation parameters of 00_scope.md: the values that the spec fixes (R7) as constants, and those that it
leaves to the implementation (R8) as one record with the constraints that the spec puts on them, and its defaults. -/

namespace Sys2Proof

namespace Config

/-- `PC_RESET`, the default start address (R7, R44). -/
def pcReset : Word := 0x3000

/-- The MCR cell after reset: `RUN_BIT` (bit 15) set, bits 14:0 zero (R33, R44, C2). -/
def mcrReset : Word := 0x8000

/-- `GETC_VECTOR`, the trap vector that the core serves itself (R7, R180). -/
def getcVector : BitVec 8 := 0x20

/-- `OP_ADD` (R7). -/
def opAdd : BitVec 4 := 0b0001
/-- `OP_AND` (R7). -/
def opAnd : BitVec 4 := 0b0101
/-- `OP_RTI` (R7). -/
def opRti : BitVec 4 := 0b1000
/-- `OP_RESERVED` (R7). -/
def opReserved : BitVec 4 := 0b1101

/-- `PSR_P`, the position of P in `psr[2:0]`, from the source (R8, R26). -/
def psrP : Fin 3 := 0

end Config

/-- What TRAP 0x20 does at the end of input, the type of `GETC_EOF` (R8, D8). The spec leaves it OPEN, gives this one answer
and forbids inventing another (93_implementation_defined.md U6; log 12). -/
inductive GetcEof where
  /-- The hold lasts until a byte comes, if ever: the spec's default `stuck`. -/
  | stuck
  deriving DecidableEq, Repr

/-- The parameters that R8 names and leaves open, under the spec's names, with what the spec demands of them. A machine has one
such record, fixed for its life (log 23). -/
structure Params where
  /-- `KBSR_ADDR`, the keyboard status register (D3; log 2). -/
  kbsrAddr : Word
  /-- `KBDR_ADDR`, the keyboard data register (D3; log 2). -/
  kbdrAddr : Word
  /-- `DSR_ADDR`, the display status register (D3; log 2). -/
  dsrAddr : Word
  /-- `DDR_ADDR`, the display data register (D3; log 2). -/
  ddrAddr : Word
  /-- `MCR_ADDR`, the machine control register cell (D3; log 2). -/
  mcrAddr : Word
  /-- `READY_MASK`, the status bit of a KBSR or DSR read (D4; log 3). -/
  readyMask : Word
  /-- `PSR_N`, the position of N in `psr[2:0]` (D5; log 4). -/
  psrN : Fin 3
  /-- `PSR_Z`, the position of Z in `psr[2:0]` (D5; log 4). -/
  psrZ : Fin 3
  /-- `OP_BR` (D1; log 5), as the eleven numbers below. -/
  opBr : BitVec 4
  /-- `OP_LD`. -/
  opLd : BitVec 4
  /-- `OP_ST`. -/
  opSt : BitVec 4
  /-- `OP_JSR`. -/
  opJsr : BitVec 4
  /-- `OP_LDR`. -/
  opLdr : BitVec 4
  /-- `OP_STR`. -/
  opStr : BitVec 4
  /-- `OP_NOT`. -/
  opNot : BitVec 4
  /-- `OP_LDI`. -/
  opLdi : BitVec 4
  /-- `OP_STI`. -/
  opSti : BitVec 4
  /-- `OP_JMP`. -/
  opJmp : BitVec 4
  /-- `OP_LEA`. -/
  opLea : BitVec 4
  /-- `OP_TRAP`. -/
  opTrap : BitVec 4
  /-- `GETC_EOF` (D8; log 12). -/
  getcEof : GetcEof
  /-- The five addresses are pairwise distinct (R8, D3). -/
  addrs_distinct : [kbsrAddr, kbdrAddr, dsrAddr, ddrAddr, mcrAddr].Nodup
  /-- `READY_MASK` is one bit (D4). -/
  ready_is_one_bit : ∃ k : Fin 16, readyMask = 1#16 <<< k.val
  /-- The three flags have three positions (R26). -/
  flags_distinct : [psrN, psrZ, Config.psrP].Nodup
  /-- The sixteen opcodes have sixteen numbers, the four of R7 among them (D1). -/
  opcodes_distinct : [opBr, Config.opAdd, opLd, opSt, opJsr, Config.opAnd, opLdr, opStr, Config.opRti, opNot, opLdi, opSti,
    opJmp, Config.opReserved, opLea, opTrap].Nodup
  /-- No word that a device read can give is a TRAP: a character or 0 has zeros in bits 15:12, a status read has `READY_MASK`
  (40_instruction_cycle.md R123). -/
  no_device_trap : opTrap ≠ 0 ∧ readyMask.extractLsb' 12 4 ≠ opTrap
  deriving DecidableEq, Repr

/-- The spec's defaults (R8; D1, D3, D4, D5, D8). DESIGN CHOICE, unsafe where a claim is about the reset state (logs 2 to 5). -/
def Params.default : Params where
  kbsrAddr := 0xFE00
  kbdrAddr := 0xFE02
  dsrAddr := 0xFE04
  ddrAddr := 0xFE06
  mcrAddr := 0xFFFE
  readyMask := 0x8000
  psrN := 2
  psrZ := 1
  opBr := 0b0000
  opLd := 0b0010
  opSt := 0b0011
  opJsr := 0b0100
  opLdr := 0b0110
  opStr := 0b0111
  opNot := 0b1001
  opLdi := 0b1010
  opSti := 0b1011
  opJmp := 0b1100
  opLea := 0b1110
  opTrap := 0b1111
  getcEof := .stuck
  addrs_distinct := by decide
  ready_is_one_bit := by decide
  flags_distinct := by decide
  opcodes_distinct := by decide
  no_device_trap := by decide

end Sys2Proof
end

