-- ==== Sys2Proof/Machine/State.lean ====
section
/-! DEFINITION. The whole state of the machine (10_state.md R45) as plain data, its value after reset (R44), and the reasons
a step or a host call can stop. -/

namespace Sys2Proof.Machine

/-- The memory array `mem[0]`..`mem[65535]` (R42, R50) as the list of its byte cells that differ from reset, the machine cell
`a` being the two byte cells `2a` (bits 15:8) and `2a + 1` (bits 7:0). DESIGN CHOICE, safe: the machine has no byte
addresses and no access sees the arrangement (R63; log 1). Reading and writing stand in Machine/Memory.lean. -/
abbrev Memory := List Host.Cell

/-- What the fault latch can hold besides "none" (R40, R191). -/
inductive ExceptionCause where
  /-- RTI or RESERVED was executed; which of the two is not recorded (R192, D19). -/
  | unimplementedOpcode
  deriving DecidableEq, Repr

/-- The state between two steps of the core. -/
structure State where
  /-- The implementation parameters of R8, which no step changes: configuration of the machine and no state of the spec's list,
  kept here because every meaning reads them (log 23). -/
  params : Params
  /-- The general registers R0 to R7 (R20). -/
  x : Vector Word 8
  /-- The program counter: the address of the next instruction to fetch (R23). -/
  pc : Word
  /-- The processor status register: the flags N, Z, P in its low three bits (R26). -/
  psr : Word
  /-- The memory array; the cell at `MCR_ADDR` is the machine control register (R42, R33). -/
  mem : Memory
  /-- The console input delivered and not yet consumed, oldest first (R38). -/
  cin : List Byte
  /-- The console output so far, oldest first (R38). -/
  cout : List Byte
  /-- The fault latch (R40). -/
  fault : Option ExceptionCause
  /-- The MODEL's own field: the coming moves of the console environment, one list of bytes for each step to come, appended to
  `cin` just before that step (R39, R77; log 8). -/
  arrivals : List (List Byte)
  deriving DecidableEq, Repr

/-- The state after `create()` on a machine with the given parameters (R44, R210). No cell is listed, so every cell holds its
reset contents. `cin` empty is DESIGN CHOICE, unsafe (log 9); `arrivals` empty is DESIGN CHOICE, unsafe (log 8). -/
def State.create (P : Params) : State where
  params := P
  x := Vector.replicate 8 0
  pc := Config.pcReset
  psr := 1#16 <<< P.psrZ.val
  mem := []
  cin := []
  cout := []
  fault := none
  arrivals := []

/-- The state after `create()` with the spec's default parameters (R8; logs 2 to 5). -/
def State.reset : State := State.create Params.default

/-- Why the core takes no step: the two ends of a run (R16, R120, R127). -/
inductive Fault where
  /-- Answered by `step` when the run/halt test finds bit 15 of the MCR cell 0: the run has ended with Success and the core
  takes no further step (R121). It is no error of the program. Safe: the model stops where the machine stops (log 10). -/
  | halted
  /-- Answered by `step` when the fault latch is set: the run has ended with `UnimplementedOpcode` (R120 step 1, R128).
  Safe: the model stops where the machine stops (log 11). -/
  | unimplementedOpcode
  deriving DecidableEq, Repr

/-- Why an interaction has no meaning in the model. No instruction and no `step` raises any of these. -/
inductive Refusal where
  /-- The instruction of this mnemonic has no meaning yet. Raised by no arm. Safe. -/
  | notModelled (mnemonic : String)
  /-- Raised by the host call `load` on a buffer of fewer than two bytes, which has no origin (R217, D21). Safe. -/
  | imageTooShort
  /-- Raised by the host calls `load`, `load_from_source` and `run` while a run is in progress (R216, D17). Safe. -/
  | runInProgress
  /-- Raised by the host call `run` on a state whose fault latch is set (R219, D24). Safe. -/
  | runAfterFault
  /-- Raised by an interaction with a machine that `create()` has not made (R210). Safe. -/
  | noSuchMachine
  /-- Raised by a core step asked for while no run is in progress: the machine does not start by itself (R212). Safe. -/
  | noRunInProgress
  deriving DecidableEq, Repr

end Sys2Proof.Machine
end

