-- ==== Sys2Proof/Machine/Flags.lean ====
section
/-! DEFINITION. The `condition_code_logic` sub-block: `setcc` and `brtest` (10_state.md R28, R30), for the flag positions
`PSR_N` and `PSR_Z` of the machine (R8). -/

namespace Sys2Proof.Machine

/-- The position `p` as a mask of `psr[2:0]`. -/
def flagMask (p : Fin 3) : BitVec 3 := 1#3 <<< p.val

/-- The flags of a written value: N if bit 15 is set, Z if it is zero, P otherwise (R28). -/
def flagsOf (P : Params) (v : Word) : BitVec 3 :=
  if v[15] then flagMask P.psrN else if v = 0 then flagMask P.psrZ else flagMask Config.psrP

/-- The status register after `setcc(v)`: the low three bits replaced, bits 15:3 preserved (R28). -/
def setccPsr (P : Params) (psr v : Word) : Word := (psr &&& 0xFFF8) ||| (flagsOf P v).setWidth 16

/-- `psr[2:0]`, the condition flags (R26). -/
def conditionFlags (psr : Word) : BitVec 3 := psr.extractLsb' 0 3

/-- The flags in the order in which BR names them, N in bit 2, Z in bit 1, P in bit 0 (R94). With the default positions this
is `psr[2:0]`; with others BR's n bit still tests N and its z bit still tests Z (D5, log 4). -/
def nzpFlags (P : Params) (psr : Word) : BitVec 3 :=
  BitVec.ofBool (psr.getLsbD P.psrN) ++ BitVec.ofBool (psr.getLsbD P.psrZ) ++ BitVec.ofBool (psr.getLsbD Config.psrP)

/-- `setcc(v)` (R28); the only writer of `psr` besides reset (R31). -/
def State.setcc (s : State) (v : Word) : State := { s with psr := setccPsr s.params s.psr v }

/-- `brtest(nzp)`: some flag that the mask names is set (R30). -/
def State.brtest (s : State) (nzp : BitVec 3) : Bool := (nzp &&& nzpFlags s.params s.psr) != 0

end Sys2Proof.Machine
end

