-- ==== Sys2Proof/Syntax.lean ====
section
/-! DEFINITION. The twenty decoded forms of 30_encoding.md R102, one constructor for each row of spec/opcode_table.json.
Operand fields are the instruction's own bits; extending them is the meaning's business (Machine/Operands.lean). -/

namespace Sys2Proof

/-- An instruction, as the decoder yields it (R102). -/
inductive Instr where
  /-- ADD, register form (R141). -/
  | addReg (dr sr1 sr2 : Reg)
  /-- ADD, immediate form (R142). -/
  | addImm (dr sr1 : Reg) (imm5 : BitVec 5)
  /-- AND, register form (R143). -/
  | andReg (dr sr1 sr2 : Reg)
  /-- AND, immediate form (R144). -/
  | andImm (dr sr1 : Reg) (imm5 : BitVec 5)
  /-- BR; bit 2 of `nzp` tests N, bit 1 Z, bit 0 P (R94, R170). -/
  | br (nzp : BitVec 3) (offset9 : BitVec 9)
  /-- JMP (R171). -/
  | jmp (baseR : Reg)
  /-- JSR, PC-relative form, instruction bit 11 = 1 (R172). -/
  | jsr (offset11 : BitVec 11)
  /-- JSR, register form, instruction bit 11 = 0 (R173). -/
  | jsrr (baseR : Reg)
  /-- LD (R151). -/
  | ld (dr : Reg) (offset9 : BitVec 9)
  /-- LDI (R152). -/
  | ldi (dr : Reg) (offset9 : BitVec 9)
  /-- LDR (R153). -/
  | ldr (dr baseR : Reg) (offset6 : BitVec 6)
  /-- LEA (R154). -/
  | lea (dr : Reg) (offset9 : BitVec 9)
  /-- NOT (R145). -/
  | notReg (dr sr1 : Reg)
  /-- RTI (R183). -/
  | rti
  /-- ST (R155). -/
  | st (sr : Reg) (offset9 : BitVec 9)
  /-- STI (R156). -/
  | sti (sr : Reg) (offset9 : BitVec 9)
  /-- STR (R157). -/
  | str (sr baseR : Reg) (offset6 : BitVec 6)
  /-- TRAP with vector 0x20, served by the core: "GETC" (R182). -/
  | trapGetc
  /-- TRAP with any other vector (R181). -/
  | trap (trapvect8 : BitVec 8)
  /-- The RESERVED opcode (R184). -/
  | reserved
  deriving DecidableEq, Repr

end Sys2Proof
end

