-- ==== Sys2Proof/WellFormed.lean ====
section
/-! DEFINITION. Which terms of `Instr` some instruction word stands for. Every operand field has its exact width in the
type (30_encoding.md R101), so one check is left: vector 0x20 is the form `trapGetc`, never `trap` (R102, R180). -/

namespace Sys2Proof

/-- The vectored form takes each of the 255 vectors other than `GETC_VECTOR` (R180). Log 19. -/
def Instr.wf (i : Instr) : Bool :=
  match i with
  | .trap v => v != Config.getcVector
  | .addReg .. | .addImm .. | .andReg .. | .andImm .. | .br .. | .jmp .. | .jsr .. | .jsrr .. | .ld .. | .ldi ..
  | .ldr .. | .lea .. | .notReg .. | .rti | .st .. | .sti .. | .str .. | .trapGetc | .reserved => true

/-- The instruction is one that some word encodes. -/
abbrev Instr.WellFormed (i : Instr) : Prop := i.wf = true

end Sys2Proof
end

