-- ==== Sys2Proof/Decode.lean ====
section
/-! DEFINITION. The `decoder` sub-block (30_encoding.md): the opcode map, the total decoder of R102, the decoder of a byte
stream, and after them the encoder written from the same formats (R91 to R99). -/

namespace Sys2Proof

/-- The sixteen primary opcodes (R2). -/
inductive Opcode where
  | br | add | ld | st | jsr | and | ldr | str | rti | not | ldi | sti | jmp | reserved | lea | trap
  deriving DecidableEq, Repr

/-- The sixteen opcodes, in the order of R100's table. -/
def Opcode.all : List Opcode :=
  [.br, .add, .ld, .st, .jsr, .and, .ldr, .str, .rti, .not, .ldi, .sti, .jmp, .reserved, .lea, .trap]

/-- The number of each opcode: the parameters `OP_*` and the four numbers that the source gives (R100, R7, R8; log 5). -/
def Opcode.bits (P : Params) : Opcode → BitVec 4
  | .br => P.opBr
  | .add => Config.opAdd
  | .ld => P.opLd
  | .st => P.opSt
  | .jsr => P.opJsr
  | .and => Config.opAnd
  | .ldr => P.opLdr
  | .str => P.opStr
  | .rti => Config.opRti
  | .not => P.opNot
  | .ldi => P.opLdi
  | .sti => P.opSti
  | .jmp => P.opJmp
  | .reserved => Config.opReserved
  | .lea => P.opLea
  | .trap => P.opTrap

/-- The opcode that the top four bits select: the one whose number they are (R100). The sixteen numbers are a permutation of
0..15 (D1), so there is always one. -/
def Opcode.ofBits (P : Params) (b : BitVec 4) : Opcode := (Opcode.all.find? fun o => o.bits P == b).getD .reserved

/-! ## Fields of an instruction word (R12) -/

/-- `ir[15:12]`. -/
def opcodeField (ir : Word) : BitVec 4 := ir.extractLsb' 12 4
/-- `ir[11:9]` as a register number: `dr` of loads and operates, `sr` of stores. -/
def regHi (ir : Word) : Reg := (ir.extractLsb' 9 3).toFin
/-- `ir[8:6]` as a register number: `sr1`, `baseR`. -/
def regMid (ir : Word) : Reg := (ir.extractLsb' 6 3).toFin
/-- `ir[2:0]` as a register number: `sr2`. -/
def regLo (ir : Word) : Reg := (ir.extractLsb' 0 3).toFin
/-- `ir[11:9]` as the condition mask of BR. -/
def nzpField (ir : Word) : BitVec 3 := ir.extractLsb' 9 3
/-- `imm5 = ir[4:0]`. -/
def imm5Field (ir : Word) : BitVec 5 := ir.extractLsb' 0 5
/-- `offset6 = ir[5:0]`. -/
def offset6Field (ir : Word) : BitVec 6 := ir.extractLsb' 0 6
/-- `offset9 = ir[8:0]`. -/
def offset9Field (ir : Word) : BitVec 9 := ir.extractLsb' 0 9
/-- `offset11 = ir[10:0]`. -/
def offset11Field (ir : Word) : BitVec 11 := ir.extractLsb' 0 11
/-- `trapvect8 = ir[7:0]`. -/
def trapvect8Field (ir : Word) : BitVec 8 := ir.extractLsb' 0 8

/-- The decoding algorithm of R102: total on all 65536 words, "invalid" is no outcome. Bits that no field covers are not
looked at (R103; log 13), so every word with `ir[7:0] = 0x20` under TRAP is the in-core form (R180, D20; log 21). -/
def decode (P : Params) (ir : Word) : Instr :=
  match Opcode.ofBits P (opcodeField ir) with
  | .br => .br (nzpField ir) (offset9Field ir)
  | .add =>
    if ir[5] then .addImm (regHi ir) (regMid ir) (imm5Field ir)
    else .addReg (regHi ir) (regMid ir) (regLo ir)
  | .ld => .ld (regHi ir) (offset9Field ir)
  | .st => .st (regHi ir) (offset9Field ir)
  | .jsr => if ir[11] then .jsr (offset11Field ir) else .jsrr (regMid ir)
  | .and =>
    if ir[5] then .andImm (regHi ir) (regMid ir) (imm5Field ir)
    else .andReg (regHi ir) (regMid ir) (regLo ir)
  | .ldr => .ldr (regHi ir) (regMid ir) (offset6Field ir)
  | .str => .str (regHi ir) (regMid ir) (offset6Field ir)
  | .rti => .rti
  | .not => .notReg (regHi ir) (regMid ir)
  | .ldi => .ldi (regHi ir) (offset9Field ir)
  | .sti => .sti (regHi ir) (offset9Field ir)
  | .jmp => .jmp (regMid ir)
  | .reserved => .reserved
  | .lea => .lea (regHi ir) (offset9Field ir)
  | .trap =>
    if trapvect8Field ir = Config.getcVector then .trapGetc else .trap (trapvect8Field ir)

/-! ## Bytes -/

/-- Bits 15:8 of a word. -/
def hiByte (w : Word) : Byte := w.extractLsb' 8 8
/-- Bits 7:0 of a word. -/
def loByte (w : Word) : Byte := w.extractLsb' 0 8
/-- The word with the byte `hi` in bits 15:8 and the byte `lo` in bits 7:0: the image's big-endian order (R64). -/
def wordOfBytes (hi lo : Byte) : Word := hi ++ lo

/-- Why a byte stream holds no instruction. -/
inductive DecodeError where
  /-- Fewer than the two bytes of an instruction word are left (R90). -/
  | truncated
  deriving DecidableEq, Repr

/-- Decodes the first instruction of a byte stream in the image's order (R64, R90), and gives back the rest. It rejects a
stream too short for a word; no whole word is ever rejected (R102). -/
def decodeBytes (P : Params) : List Byte → Except DecodeError (Instr × List Byte)
  | hi :: lo :: rest => .ok (decode P (wordOfBytes hi lo), rest)
  | [_] | [] => .error .truncated

/-! ## The encoder -/

/-- The opcode of each form (R100, R102). -/
def Instr.opcode : Instr → Opcode
  | .addReg .. | .addImm .. => .add
  | .andReg .. | .andImm .. => .and
  | .br .. => .br
  | .jmp .. => .jmp
  | .jsr .. | .jsrr .. => .jsr
  | .ld .. => .ld
  | .ldi .. => .ldi
  | .ldr .. => .ldr
  | .lea .. => .lea
  | .notReg .. => .not
  | .rti => .rti
  | .st .. => .st
  | .sti .. => .sti
  | .str .. => .str
  | .trapGetc | .trap .. => .trap
  | .reserved => .reserved

/-- A register number as its 3-bit field. -/
def regBits (r : Reg) : BitVec 3 := BitVec.ofFin r

/-- Bits 11:0 of the instruction word, by the formats R91 to R99. The ignored bits have the values that R103 says an
assembler writes: 1 in NOT bits 5:0, 0 elsewhere (log 13). -/
def Instr.operandBits : Instr → BitVec 12
  | .addReg dr sr1 sr2 | .andReg dr sr1 sr2 => regBits dr ++ regBits sr1 ++ 0b0#1 ++ 0b00#2 ++ regBits sr2
  | .addImm dr sr1 imm5 | .andImm dr sr1 imm5 => regBits dr ++ regBits sr1 ++ 0b1#1 ++ imm5
  | .br nzp offset9 => nzp ++ offset9
  | .jmp baseR => 0b000#3 ++ regBits baseR ++ 0b000000#6
  | .jsr offset11 => 0b1#1 ++ offset11
  | .jsrr baseR => 0b0#1 ++ 0b00#2 ++ regBits baseR ++ 0b000000#6
  | .ld r offset9 | .ldi r offset9 | .lea r offset9 | .st r offset9 | .sti r offset9 => regBits r ++ offset9
  | .ldr r baseR offset6 | .str r baseR offset6 => regBits r ++ regBits baseR ++ offset6
  | .notReg dr sr1 => regBits dr ++ regBits sr1 ++ 0b111111#6
  | .rti | .reserved => 0
  | .trapGetc => 0b0000#4 ++ Config.getcVector
  | .trap trapvect8 => 0b0000#4 ++ trapvect8

/-- The word of an instruction: opcode in bits 15:12, operands below (R90). -/
def encode (P : Params) (i : Instr) : Word := i.opcode.bits P ++ i.operandBits

/-- The bytes of an instruction as they stand in an image (R64). -/
def encodeBytes (P : Params) (i : Instr) : List Byte := [hiByte (encode P i), loByte (encode P i)]

/-- The bits of an instruction word that the decoder of this form looks at; the others are ignored (R103). -/
def Instr.significantBits : Instr → Word
  | .addReg .. | .andReg .. => 0b1111111111100111
  | .notReg .. => 0b1111111111000000
  | .jmp .. => 0b1111000111000000
  | .jsrr .. => 0b1111100111000000
  | .trapGetc | .trap .. => 0b1111000011111111
  | .rti | .reserved => 0b1111000000000000
  | .addImm .. | .andImm .. | .br .. | .jsr .. | .ld .. | .ldi .. | .ldr .. | .lea .. | .st .. | .sti .. | .str .. =>
    0b1111111111111111

/-! ## The host's view of the decoder -/

/-- The instruction that the decoder reads, under the default opcode numbers, from the word whose bits the opcode table numbers
as `w`; every instruction is one 16-bit word (R90), so a longer row is no instruction of this machine. -/
def decodeTableWord (nbits w : Nat) : Option Instr :=
  if nbits ≤ 16 then
    let ir : Word := BitVec.ofNat 16 (w % 2 ^ nbits)
    match decodeBytes Params.default [hiByte ir, loByte ir] with
    | .ok (i, _) => some i
    | .error _ => none
  else none

end Sys2Proof
end

