-- ==== Sys2Proof/Machine/Memory.lean ====
section
/-! DEFINITION. The memory array and raw access (20_memory.md R50, R51), over the canonical list of byte cells. `mcr` is
`MCR_ADDR`, the one cell that reset leaves other than zero. -/

namespace Sys2Proof.Machine

/-- What the cell at `a` holds after reset (R44): zero, but for the MCR cell, whose run bit is set (C2). -/
def resetCell (mcr : Word) (a : Nat) : Word :=
  if a = mcr.toNat then Config.mcrReset else 0

/-- What the byte cell `k` reads as when the memory does not list it: the reset contents of its half of cell `k / 2`. -/
def Memory.unlisted (mcr : Word) (k : Nat) : Byte :=
  if k % 2 = 0 then hiByte (resetCell mcr (k / 2)) else loByte (resetCell mcr (k / 2))

/-- Reads one byte cell. -/
def Memory.readByte (mcr : Word) : Memory → Nat → Byte
  | [], k => Memory.unlisted mcr k
  | (k', b) :: m, k => if k = k' then b else Memory.readByte mcr m k

/-- Puts an entry before the first entry with a greater key. -/
def Memory.insertByte : Memory → Nat → Byte → Memory
  | [], k, b => [(k, b)]
  | (k', b') :: m, k, b =>
    if k < k' then (k, b) :: (k', b') :: m else (k', b') :: Memory.insertByte m k b

/-- Takes out every entry for a key. -/
def Memory.eraseByte (m : Memory) (k : Nat) : Memory := m.filter fun c => c.1 != k

/-- Writes one byte cell and keeps the canonical form: the value an unlisted cell reads as is not listed. -/
def Memory.writeByte (mcr : Word) (m : Memory) (k : Nat) (b : Byte) : Memory :=
  if b = Memory.unlisted mcr k then Memory.eraseByte m k else Memory.insertByte (Memory.eraseByte m k) k b

/-- The word in the cell at `a`. -/
def Memory.readCell (mcr : Word) (m : Memory) (a : Word) : Word :=
  wordOfBytes (m.readByte mcr (2 * a.toNat)) (m.readByte mcr (2 * a.toNat + 1))

/-- The cell at `a` takes the whole word `v`. -/
def Memory.writeCell (mcr : Word) (m : Memory) (a v : Word) : Memory :=
  (m.writeByte mcr (2 * a.toNat) (hiByte v)).writeByte mcr (2 * a.toNat + 1) (loByte v)

/-- The canonical form: keys strictly rising, each one of the 131072 byte cells, no entry equal to what an unlisted cell reads
as. Equal memories are then equal lists. -/
def Memory.wf (mcr : Word) : Memory → Bool
  | [] => true
  | (k, b) :: m =>
    m.all (fun c => decide (k < c.1)) && decide (k < 131072) && (b != Memory.unlisted mcr k) && Memory.wf mcr m

/-! ## The machine's own array -/

/-- One byte cell of the machine's array (log 1). -/
def State.rawByte (s : State) (k : Nat) : Byte := s.mem.readByte s.params.mcrAddr k

/-- `RawRead(a)`: the word in the cell at `a` (R51). -/
def State.rawRead (s : State) (a : Word) : Word := s.mem.readCell s.params.mcrAddr a

/-- `RawWrite(a, v)`: the cell at `a` takes the whole word `v` (R51). -/
def State.rawWrite (s : State) (a v : Word) : State := { s with mem := s.mem.writeCell s.params.mcrAddr a v }

/-- The machine's array is in canonical form. -/
def State.memWf (s : State) : Bool := s.mem.wf s.params.mcrAddr

end Sys2Proof.Machine
end

