-- ==== Sys2Proof/Machine/Ops.lean ====
section
/-! DEFINITION. The named operations every meaning is written over: register access, the `alu`, the
`memory_mapped_io_arbiter` (20_memory.md R54, R61), the console, raising the one exception (60_exceptions.md R190), trap
entry (R196), the hold (40_instruction_cycle.md R129) and the fetch (R122, R124). -/

namespace Sys2Proof.Machine

/-! ## `register_file` (10_state.md R20 to R22) -/

/-- `x[i]` (R20). -/
def State.reg (s : State) (i : Reg) : Word := s.x[i]

/-- `x[i] <- v`: the whole word, `psr` untouched (R22). No register is hard-wired (R21). -/
def State.setReg (s : State) (i : Reg) (v : Word) : State := { s with x := s.x.set i v }

/-- `pc <- t` (R23). -/
def State.setPc (s : State) (t : Word) : State := { s with pc := t }

/-- `x[dr] <- v; setcc(v)`: how ADD, AND, NOT, LD, LDI, LDR and LEA deliver their result (R29). -/
def State.writeResult (s : State) (dr : Reg) (v : Word) : State := (s.setReg dr v).setcc v

/-- R7, the register that JSR and TRAP link through (R21). -/
def linkReg : Reg := 7

/-- R0, the register that TRAP 0x20 delivers into (R21). -/
def charReg : Reg := 0

/-! ## `alu` (41_operate.md R140) -/

/-- Addition modulo 65536, also of every effective address (R140). -/
def aluAdd (a b : Word) : Word := a + b
/-- Bitwise AND (R140). -/
def aluAnd (a b : Word) : Word := a &&& b
/-- Bitwise complement, `a xor 0xFFFF` (R140). -/
def aluNot (a : Word) : Word := a ^^^ 0xFFFF

/-! ## The console (10_state.md R38, R39) -/

/-- The word a console byte becomes: zero-extended (R35, R182; D7, D9, log 14). -/
def charWord (b : Byte) : Word := b.setWidth 16

/-- The byte of a word that DDR emits: bits 7:0 (R37; D10, log 14). -/
def emittedByte (v : Word) : Byte := loByte v

/-- The console environment's only move: one byte at the end of `cin` (R39). -/
def State.consoleInput (s : State) (b : Byte) : State := { s with cin := s.cin ++ [b] }

/-- The bytes that arrive before the next step. -/
def State.arriving (s : State) : List Byte := s.arrivals.headD []

/-- The console environment's moves before the next step: what the schedule holds for it is appended to `cin` (R39, R77;
log 8). Nothing else changes. -/
def State.environmentMove (s : State) : State :=
  { s with cin := s.cin ++ s.arriving, arrivals := s.arrivals.tail }

/-! ## `memory_mapped_io_arbiter` (20_memory.md R53 to R61) -/

/-- The four addresses with device semantics (R53). -/
def isDeviceAddr (P : Params) (a : Word) : Bool :=
  a = P.kbsrAddr || a = P.kbdrAddr || a = P.dsrAddr || a = P.ddrAddr

/-- `MemRead(a, 1)`: the word read, and the state with the device's read effect (R54). It never blocks (R55). -/
def State.memRead (s : State) (a : Word) : Word × State :=
  if a = s.params.kbsrAddr then (if s.cin.isEmpty then 0 else s.params.readyMask, s)
  else if a = s.params.kbdrAddr then
    match s.cin with
    | b :: rest => (charWord b, { s with cin := rest })
    | [] => (0, s)
  else if a = s.params.dsrAddr then (s.params.readyMask, s)
  else if a = s.params.ddrAddr then (0, s)
  else (s.rawRead a, s)

/-- `MemWrite(a, 1, v)` (R61). -/
def State.memWrite (s : State) (a v : Word) : State :=
  if a = s.params.kbsrAddr ∨ a = s.params.kbdrAddr ∨ a = s.params.dsrAddr then s
  else if a = s.params.ddrAddr then { s with cout := s.cout ++ [emittedByte v] }
  else s.rawWrite a v

/-! ## Exception, trap, hold -/

/-- `raise UnimplementedOpcode`: the latch is set and nothing else changes (R190). It is not caught and there is no return
from it (R193); the run ends because the next step finds the latch set (R128). -/
def State.raiseUnimplementedOpcode (s : State) : State := { s with fault := some .unimplementedOpcode }

/-- Trap entry: `x[7] <- pc; pc <- MemRead(entry, 1)`, and nothing else (R196, R197). The read does not depend on R7 (R181). -/
def State.enterTrap (s : State) (entry : Word) : State :=
  let r := s.memRead entry
  (r.2.setReg linkReg r.2.pc).setPc r.1

/-- The hold of R129 as a step that has not happened: the fetch's increment is undone, so the next step fetches the same
instruction again. DESIGN CHOICE, safe: R129 allows this form or the one that waits with `pc = A + 1` (log 7). -/
def State.hold (s : State) : State := s.setPc (s.pc - 1)

/-! ## `fetch_unit` (40_instruction_cycle.md R120 to R125) -/

/-- The RUN bit: bit 15 of the MCR cell and nothing else (R33, R121; log 20). -/
def State.runBit (s : State) : Bool := (s.rawRead s.params.mcrAddr).getLsbD 15

/-- Fetch and increment: `ir = MemRead(pc, 1)`, then `pc <- pc + 1` modulo 65536 (R122, R124; D2, log 6). -/
def State.fetch (s : State) : Word × State :=
  let r := s.memRead s.pc
  (r.1, r.2.setPc (s.pc + 1))

end Sys2Proof.Machine
end

