-- ==== Sys2Proof/Machine/Operands.lean ====
section
/-! DEFINITION. Operand forms: sign and zero extension (00_scope.md R10), the immediates (30_encoding.md R101) and the
addressing modes (42_load_store.md R150). Everywhere `pc` is the address of the instruction plus 1 (R13). -/

namespace Sys2Proof.Machine

/-- `sext_N(v)`: the 16-bit word with the signed value of the N-bit field (R10). -/
def sext {n : Nat} (v : BitVec n) : Word := v.signExtend 16

/-- `zext_N(v)`: zeros above the low N bits (R10). -/
def zext {n : Nat} (v : BitVec n) : Word := v.setWidth 16

/-- The PC-relative address `pc + sext_N(offset)`: N = 9 for LD, LDI, LEA, ST, STI and BR, N = 11 for JSR (R150, R172). -/
def State.pcRelative {n : Nat} (s : State) (offset : BitVec n) : Word := aluAdd s.pc (sext offset)

/-- The base + offset address `x[baseR] + sext_6(offset6)` of LDR and STR (R150). -/
def State.basePlusOffset (s : State) (baseR : Reg) (offset6 : BitVec 6) : Word := aluAdd (s.reg baseR) (sext offset6)

/-- The indirect address of LDI and STI, `MemRead(pc + sext_9(offset9), 1)`, with the state after the pointer read (R150). -/
def State.indirect (s : State) (offset9 : BitVec 9) : Word × State := s.memRead (s.pcRelative offset9)

end Sys2Proof.Machine
end

