-- ==== Sys2Proof/Machine/Control.lean ====
section
/-! DEFINITION. Control transfer: BR, JMP and both forms of JSR (43_control.md). -/

namespace Sys2Proof.Machine

/-- BR: taken when `brtest(nzp)`, else nothing (R170). -/
def execBr (nzp : BitVec 3) (offset9 : BitVec 9) (s : State) : Host.Outcome State Fault Refusal :=
  .next (if s.brtest nzp then s.setPc (s.pcRelative offset9) else s)

/-- JMP (R171). -/
def execJmp (baseR : Reg) (s : State) : Host.Outcome State Fault Refusal :=
  .next (s.setPc (s.reg baseR))

/-- JSR, PC-relative form (R172). -/
def execJsr (offset11 : BitVec 11) (s : State) : Host.Outcome State Fault Refusal :=
  let originalPc := s.pc
  .next ((s.setPc (s.pcRelative offset11)).setReg linkReg originalPc)

/-- JSR, register form: the target is read before R7 is written (R173, R224). -/
def execJsrr (baseR : Reg) (s : State) : Host.Outcome State Fault Refusal :=
  let originalPc := s.pc
  let target := s.reg baseR
  .next ((s.setPc target).setReg linkReg originalPc)

end Sys2Proof.Machine
end

