-- ==== Sys2Proof/Machine/LoadStore.lean ====
section
/-! DEFINITION. Loads, LEA and stores (42_load_store.md). Accesses stand in the order of 20_memory.md R72. -/

namespace Sys2Proof.Machine

/-- LD (R151). -/
def execLd (dr : Reg) (offset9 : BitVec 9) (s : State) : Host.Outcome State Fault Refusal :=
  let data := s.memRead (s.pcRelative offset9)
  .next (data.2.writeResult dr data.1)

/-- LDI: the pointer read, then the data read; flags from the data (R152). -/
def execLdi (dr : Reg) (offset9 : BitVec 9) (s : State) : Host.Outcome State Fault Refusal :=
  let pointer := s.indirect offset9
  let data := pointer.2.memRead pointer.1
  .next (data.2.writeResult dr data.1)

/-- LDR (R153). -/
def execLdr (dr baseR : Reg) (offset6 : BitVec 6) (s : State) : Host.Outcome State Fault Refusal :=
  let data := s.memRead (s.basePlusOffset baseR offset6)
  .next (data.2.writeResult dr data.1)

/-- LEA: the address itself; it sets the condition codes (R154). -/
def execLea (dr : Reg) (offset9 : BitVec 9) (s : State) : Host.Outcome State Fault Refusal :=
  .next (s.writeResult dr (s.pcRelative offset9))

/-- ST (R155). -/
def execSt (sr : Reg) (offset9 : BitVec 9) (s : State) : Host.Outcome State Fault Refusal :=
  .next (s.memWrite (s.pcRelative offset9) (s.reg sr))

/-- STI: the pointer read, then the data write (R156). -/
def execSti (sr : Reg) (offset9 : BitVec 9) (s : State) : Host.Outcome State Fault Refusal :=
  let pointer := s.indirect offset9
  .next (pointer.2.memWrite pointer.1 (s.reg sr))

/-- STR (R157). -/
def execStr (sr baseR : Reg) (offset6 : BitVec 6) (s : State) : Host.Outcome State Fault Refusal :=
  .next (s.memWrite (s.basePlusOffset baseR offset6) (s.reg sr))

end Sys2Proof.Machine
end

