-- ==== Sys2Proof/Machine/Operate.lean ====
section
/-! DEFINITION. The operate instructions ADD, AND and NOT (41_operate.md). -/

namespace Sys2Proof.Machine

/-- ADD, register form (R141). -/
def execAddReg (dr sr1 sr2 : Reg) (s : State) : Host.Outcome State Fault Refusal :=
  .next (s.writeResult dr (aluAdd (s.reg sr1) (s.reg sr2)))

/-- ADD, immediate form (R142). -/
def execAddImm (dr sr1 : Reg) (imm5 : BitVec 5) (s : State) : Host.Outcome State Fault Refusal :=
  .next (s.writeResult dr (aluAdd (s.reg sr1) (sext imm5)))

/-- AND, register form (R143). -/
def execAndReg (dr sr1 sr2 : Reg) (s : State) : Host.Outcome State Fault Refusal :=
  .next (s.writeResult dr (aluAnd (s.reg sr1) (s.reg sr2)))

/-- AND, immediate form: the immediate is sign-extended before the AND (R144). -/
def execAndImm (dr sr1 : Reg) (imm5 : BitVec 5) (s : State) : Host.Outcome State Fault Refusal :=
  .next (s.writeResult dr (aluAnd (s.reg sr1) (sext imm5)))

/-- NOT (R145). -/
def execNotReg (dr sr1 : Reg) (s : State) : Host.Outcome State Fault Refusal :=
  .next (s.writeResult dr (aluNot (s.reg sr1)))

end Sys2Proof.Machine
end

