-- ==== Sys2Proof/Machine/TrapSystem.lean ====
section
/-! DEFINITION. TRAP, RTI and the RESERVED opcode (44_trap_system.md). -/

namespace Sys2Proof.Machine

/-- TRAP, vectored form: entry through the table at 0x0000..0x00FF (R181, R196). -/
def execTrap (trapvect8 : BitVec 8) (s : State) : Host.Outcome State Fault Refusal :=
  .next (s.enterTrap (zext trapvect8))

/-- TRAP 0x20: one byte of console input into R0, without `setcc`; with no input waiting the core holds (R182, R129), and
`GETC_EOF` says what becomes of a hold that no byte lifts (R8, D8). -/
def execTrapGetc (s : State) : Host.Outcome State Fault Refusal :=
  match s.cin with
  | b :: rest => .next ({ s with cin := rest }.setReg charReg (charWord b))
  | [] =>
    match s.params.getcEof with
    | .stuck => .next s.hold

/-- RTI: a fault in every state, never a return (R183). -/
def execRti (s : State) : Host.Outcome State Fault Refusal := .next s.raiseUnimplementedOpcode

/-- RESERVED: the same fault (R184). -/
def execReserved (s : State) : Host.Outcome State Fault Refusal := .next s.raiseUnimplementedOpcode

end Sys2Proof.Machine
end

