-- ==== Sys2Proof/Machine/Step.lean ====
section
/-! DEFINITION. One step of the core (40_instruction_cycle.md R120), and the host's way to place the next instruction. -/

namespace Sys2Proof.Machine

/-- The core's part of a step (R120): the fault latch, the run/halt test, the fetch with its increment, decode, execute. -/
def coreStep (s : State) : Host.Outcome State Fault Refusal :=
  match s.fault with
  | some .unimplementedOpcode => .fault .unimplementedOpcode
  | none =>
    if s.runBit then exec (decode s.params s.fetch.1) s.fetch.2
    else .fault .halted

/-- One step, from a state in which a run is in progress (R120; log 17): what the console environment does before it (R39,
R77; log 8), then the core's part. -/
def step (s : State) : Host.Outcome State Fault Refusal := coreStep s.environmentMove

/-- `a` is one of the five addresses at which a placed word would not be fetched, or would overwrite the MCR. -/
def State.isSpecialAddr (s : State) (a : Word) : Bool := isDeviceAddr s.params a || a == s.params.mcrAddr

/-- The address from which `withFetchWord` has the next instruction fetched: `pc`, or, where `pc` is one of the five special
addresses, the first of six addresses from the start address upward that is none of them (log 16). -/
def State.placeAddr (s : State) : Word :=
  ([s.pc, 0x3000, 0x3001, 0x3002, 0x3003, 0x3004, 0x3005].find? fun a => !s.isSpecialAddr a).getD s.pc

/-- `s` with the run bit set: the MCR cell as it is where bit 15 is 1, else with that bit added (log 16). -/
def State.withRunBit (s : State) : State :=
  if s.runBit then s else s.rawWrite s.params.mcrAddr (s.rawRead s.params.mcrAddr ||| Config.mcrReset)

/-- `s` with the instruction word `w` where `step` fetches next, and with what a fetch needs: the latch clear and the run bit
set (R120, R121). It stands for the host's `load` (log 16). -/
def State.withFetchWord (s : State) (nbits w : Nat) : State :=
  { s.withRunBit.rawWrite s.placeAddr (BitVec.ofNat 16 (w % 2 ^ nbits)) with pc := s.placeAddr, fault := none }

end Sys2Proof.Machine
end

