-- ==== Sys2Proof/Machine/Loader.lean ====
section
/-! DEFINITION. The loader, a host operation (70_reset_and_hazards.md R215 to R221). -/

namespace Sys2Proof.Machine

/-- What a loader call returns to the host (R231). -/
inductive LoadResult where
  /-- The image was copied and `pc` set (R218). -/
  | success
  /-- `origin + word_count > 65536`; the state is unchanged (R220). -/
  | inputTooLarge
  /-- The bytes could not be obtained; `load` was never called (R221). -/
  | inputNotFound
  deriving DecidableEq, Repr

/-- The big-endian words of a byte sequence; a trailing odd byte belongs to no word (R217, D21). -/
def wordsOfBytes : List Byte → List Word
  | hi :: lo :: rest => wordOfBytes hi lo :: wordsOfBytes rest
  | [_] | [] => []

/-- Raw copy of words to consecutive cells from `a` upward (R218). -/
def State.rawWrites (s : State) (a : Word) : List Word → State
  | [] => s
  | w :: ws => (s.rawWrite a w).rawWrites (a + 1) ws

/-- `load(bytes)`: the bound check first, then the raw copy and `pc <- origin`, nothing else (R217, R218, R220). A buffer
with no origin is refused (D21). The copy covers `MCR_ADDR` and the device cells too (D23; log 15). -/
def State.load (s : State) (bytes : List Byte) : Host.Outcome (LoadResult × State) Fault Refusal :=
  match bytes with
  | hi :: lo :: rest =>
    let origin := wordOfBytes hi lo
    let words := wordsOfBytes rest
    if origin.toNat + words.length ≤ 65536 then
      .next (.success, (s.rawWrites origin words).setPc origin)
    else .next (.inputTooLarge, s)
  | [_] | [] => .refused .imageTooShort

/-- `load_from_source(id)`, given what the external byte source yields (R221). -/
def State.loadFromSource (s : State) (source : Option (List Byte)) :
    Host.Outcome (LoadResult × State) Fault Refusal :=
  match source with
  | some bytes => s.load bytes
  | none => .next (.inputNotFound, s)

end Sys2Proof.Machine
end

