-- ==== Sys2Proof/Machine/HostInterface.lean ====
section
/-! DEFINITION. The host interface of 70_reset_and_hazards.md R231: what the host and the console environment may do to one
machine, when, and what they get back; and the machines that `create()` makes beside one another (R211). -/

namespace Sys2Proof.Machine

/-! ## One machine -/

/-- One machine and whether a run is in progress on it: the host acts only while none is (R15, R216; log 18). -/
structure Session where
  machine : State
  running : Bool
  deriving DecidableEq, Repr

/-- An interaction with one machine (R231). -/
inductive Interaction where
  /-- `load(bytes)` (R217). -/
  | load (bytes : List Byte)
  /-- `load_from_source(id)`, with what the byte source yields (R221). -/
  | loadFromSource (source : Option (List Byte))
  /-- `run(state)` (R219). -/
  | run
  /-- The console environment appends one byte to `cin`, at any time (R39). -/
  | consoleInput (b : Byte)
  /-- The host reads `cout`, at any time. -/
  | consoleOutput
  /-- The core takes its next step of the run in progress (R120). -/
  | coreStep
  deriving DecidableEq, Repr

/-- What the machine returns (R231). -/
inductive Reply where
  /-- Nothing to return. -/
  | done
  /-- `create()` made machine number `n`, in this state. -/
  | created (n : Nat) (s : State)
  /-- The result of a loader call. -/
  | loaded (r : LoadResult)
  /-- The bytes emitted so far, oldest first. -/
  | output (bytes : List Byte)
  /-- `run` returned Success: the run bit was 0 before a fetch (R16, R121). -/
  | runSuccess
  /-- `run` returned `UnimplementedOpcode` (R16, R128). -/
  | runUnimplementedOpcode
  deriving DecidableEq, Repr

/-- A machine right after `create()` (R210): nothing executes until `run` (R212). -/
def Session.create (P : Params) : Session := { machine := State.create P, running := false }

/-- A loader call on the session's machine: refused while a run is in progress (R216, D17). -/
def Session.loadWith (t : Session) (call : Host.Outcome (LoadResult × State) Fault Refusal) :
    Host.Outcome (Reply × Session) Fault Refusal :=
  if t.running then .refused .runInProgress
  else match call with
    | .next (r, s) => .next (.loaded r, { machine := s, running := false })
    | .fault f => .fault f
    | .refused r => .refused r

/-- `run(state)`: starts a run and changes nothing of the state (R219); refused on a faulted state (D24). -/
def Session.startRun (t : Session) : Host.Outcome (Reply × Session) Fault Refusal :=
  if t.running then .refused .runInProgress
  else match t.machine.fault with
    | some .unimplementedOpcode => .refused .runAfterFault
    | none => .next (.done, { machine := t.machine, running := true })

/-- The core's next step within a run, or the end of the run with its result (R16, R127). At the end the state stands as the
last completed step left it (D24). -/
def Session.coreStep (t : Session) : Host.Outcome (Reply × Session) Fault Refusal :=
  if t.running then
    match step t.machine with
    | .next s => .next (.done, { machine := s, running := true })
    | .fault .halted => .next (.runSuccess, { machine := t.machine, running := false })
    | .fault .unimplementedOpcode => .next (.runUnimplementedOpcode, { machine := t.machine, running := false })
    | .refused r => .refused r
  else .refused .noRunInProgress

/-- One interaction with one machine (R231). -/
def Session.interact (t : Session) : Interaction → Host.Outcome (Reply × Session) Fault Refusal
  | .load bytes => t.loadWith (t.machine.load bytes)
  | .loadFromSource source => t.loadWith (t.machine.loadFromSource source)
  | .run => t.startRun
  | .consoleInput b => .next (.done, { machine := t.machine.consoleInput b, running := t.running })
  | .consoleOutput => .next (.output t.machine.cout, t)
  | .coreStep => t.coreStep

/-! ## Several machines (R211, 60_exceptions.md R203) -/

/-- The machines of one implementation, in the order of their creation, and its parameters (R8). No machine holds anything of
another. -/
structure World where
  params : Params
  machines : List Session
  deriving DecidableEq, Repr

/-- A move of the host or of a console environment. -/
inductive WorldMove where
  /-- `create()`, at any time: one machine more (R210, R211). -/
  | create
  /-- An interaction with machine number `n` alone. -/
  | on (n : Nat) (i : Interaction)
  deriving DecidableEq, Repr

/-- One move. `create()` never touches a machine that exists, and there is no other reset (R211). -/
def World.move (w : World) : WorldMove → Host.Outcome (Reply × World) Fault Refusal
  | .create =>
    .next (.created w.machines.length (State.create w.params),
      { params := w.params, machines := w.machines ++ [Session.create w.params] })
  | .on n i =>
    match w.machines[n]? with
    | none => .refused .noSuchMachine
    | some t =>
      match t.interact i with
      | .next (r, t') => .next (r, { params := w.params, machines := w.machines.set n t' })
      | .fault f => .fault f
      | .refused r => .refused r

end Sys2Proof.Machine
end

