-- ==== Sys2Proof/Safety.lean ====
section
/-! DEFINITION. The terms in which claims speak: the classes of states of 40_instruction_cycle.md R131, the invariant of the
state, and, written from the spec's own tables, what an instruction's result, flags and store look like from outside. -/

namespace Sys2Proof.Machine

/-- A final state: no fault and the run bit 0 (R131). -/
abbrev State.Final (s : State) : Prop := s.fault = none ∧ s.runBit = false

/-- A faulted state (R131). -/
abbrev State.Faulted (s : State) : Prop := s.fault = some .unimplementedOpcode

/-- A state from which the core steps: neither faulted nor final (R120, R131). -/
abbrev State.Running (s : State) : Prop := s.fault = none ∧ s.runBit = true

/-- The instruction that the next core step fetches (R122), given the state at that moment. -/
def State.nextInstr (s : State) : Instr := decode s.params s.fetch.1

/-- A held state: a step is due, the next instruction is TRAP 0x20 and `cin` is empty (R129, R131). -/
abbrev State.Held (s : State) : Prop := s.Running ∧ s.nextInstr = .trapGetc ∧ s.cin = []

/-- Exactly one of N, Z, P is set and bits 15:3 are zero (R26, R27). -/
abbrev State.PsrLegal (s : State) : Prop :=
  s.psr = (flagMask s.params.psrN).setWidth 16 ∨ s.psr = (flagMask s.params.psrZ).setWidth 16 ∨
    s.psr = (flagMask Config.psrP).setWidth 16

/-- What every step keeps: a legal `psr` (R26, R27) and memory in canonical form. -/
abbrev State.Inv (s : State) : Prop := s.PsrLegal ∧ s.memWf = true

/-! ## Numbers -/

/-- `sext_N(u)` as the number of R10: `u` itself below `2^(N-1)`, else `u - 2^N` modulo 65536. -/
def sextNat (n u : Nat) : Nat := if u < 2 ^ (n - 1) then u else (u + 65536 - 2 ^ n) % 65536

/-! ## Effects seen from outside -/

/-- `psr'` is `psr` after a condition-code update from the value `v`, read as a signed number (R28, R146): bits 15:3 as before,
and of the three flags N alone iff `v` is negative, Z alone iff it is zero, P alone iff it is positive. The flags stand at the
machine's positions for them (R8). -/
def FlagsFrom (P : Params) (psr v psr' : Word) : Prop :=
  (∀ k, 3 ≤ k → psr'.getLsbD k = psr.getLsbD k) ∧
    (psr'.extractLsb' 0 3 = flagMask P.psrN ↔ v.toInt < 0) ∧ (psr'.extractLsb' 0 3 = flagMask P.psrZ ↔ v.toInt = 0) ∧
    (psr'.extractLsb' 0 3 = flagMask Config.psrP ↔ 0 < v.toInt)

/-- From `s` to `t` the register `dr` alone may have changed and the flags are those of its new value; `pc`, memory, output, the
latch, the environment's schedule and the parameters are untouched. `cin` is left to the instruction (a load may take a byte). -/
def WroteResult (s t : State) (dr : Reg) : Prop :=
  (∀ r, r ≠ dr → t.reg r = s.reg r) ∧ FlagsFrom s.params s.psr (t.reg dr) t.psr ∧ t.pc = s.pc ∧ t.mem = s.mem ∧
    t.cout = s.cout ∧ t.fault = s.fault ∧ t.arrivals = s.arrivals ∧ t.params = s.params

/-- From `s` to `t` only `pc` and the register R7 may have changed, and R7 holds `link`; the flags are untouched (R172, R173).
`cin` is left to the instruction (R181 reads a table entry). -/
def LinkedTo (s t : State) (link : Word) : Prop :=
  t.reg 7 = link ∧ (∀ r, r ≠ 7 → t.reg r = s.reg r) ∧ t.psr = s.psr ∧ t.mem = s.mem ∧
    t.cout = s.cout ∧ t.fault = s.fault ∧ t.arrivals = s.arrivals ∧ t.params = s.params

/-- What a store of `v` at `ea` leaves (R61): one byte out at DDR, nothing at the other three device registers, else the one
cell; every other cell reads as before. Registers, flags, `pc`, the latch, the schedule and the parameters are untouched. -/
def StoredAt (s t : State) (ea v : Word) : Prop :=
  (if ea = s.params.ddrAddr then t.mem = s.mem ∧ t.cout = s.cout ++ [v.setWidth 8]
    else if ea = s.params.kbsrAddr ∨ ea = s.params.kbdrAddr ∨ ea = s.params.dsrAddr then t.mem = s.mem ∧ t.cout = s.cout
    else t.rawRead ea = v ∧ (∀ a, a ≠ ea → t.rawRead a = s.rawRead a) ∧ t.cout = s.cout) ∧
    (∀ r, t.reg r = s.reg r) ∧ t.psr = s.psr ∧ t.pc = s.pc ∧ t.fault = s.fault ∧ t.arrivals = s.arrivals ∧
    t.params = s.params

/-- The two states are equal but for what the array holds at the four device addresses (R32). -/
def SameButDeviceCells (s t : State) : Prop :=
  (∀ r, t.reg r = s.reg r) ∧ t.pc = s.pc ∧ t.psr = s.psr ∧ t.cin = s.cin ∧ t.cout = s.cout ∧ t.fault = s.fault ∧
    t.arrivals = s.arrivals ∧ t.params = s.params ∧
    ∀ a, isDeviceAddr s.params a = false → t.rawRead a = s.rawRead a

/-- No entry of the trap vector table, 0x0000 to 0x00FF, is a device address: the constraint that D3 has stated where a vector
read is to have no side effect. -/
def VectorTablePlain (P : Params) : Prop := ∀ a : Word, a.toNat < 256 → isDeviceAddr P a = false

end Sys2Proof.Machine

namespace Sys2Proof

open Machine (State)

/-! ## The spec's tables by instruction -/

/-- The register that the instruction writes (R22's table). -/
def Instr.writtenReg : Instr → Option Reg
  | .addReg dr _ _ | .addImm dr _ _ | .andReg dr _ _ | .andImm dr _ _ | .notReg dr _ => some dr
  | .ld dr _ | .ldi dr _ | .ldr dr _ _ | .lea dr _ => some dr
  | .jsr _ | .jsrr _ | .trap _ => some 7
  | .trapGetc => some 0
  | .br _ _ | .jmp _ | .st _ _ | .sti _ _ | .str _ _ _ | .rti | .reserved => none

/-- The instructions that call `setcc` (R29). -/
def Instr.setsFlags : Instr → Bool
  | .addReg .. | .addImm .. | .andReg .. | .andImm .. | .notReg .. | .ld .. | .ldi .. | .ldr .. | .lea .. => true
  | .br .. | .jmp .. | .jsr .. | .jsrr .. | .rti | .st .. | .sti .. | .str .. | .trapGetc | .trap .. | .reserved => false

/-- The instructions that can leave `pc` elsewhere than after themselves (R174), and the one that can hold (R129). -/
def Instr.movesPc : Instr → Bool
  | .br .. | .jmp .. | .jsr .. | .jsrr .. | .trap .. | .trapGetc => true
  | .addReg .. | .addImm .. | .andReg .. | .andImm .. | .notReg .. | .ld .. | .ldi .. | .ldr .. | .lea .. | .rti | .st ..
  | .sti .. | .str .. | .reserved => false

/-- The address that the instruction stores to, computed as its meaning computes it (R72). -/
def Instr.storeAddress (i : Instr) (s : State) : Option Word :=
  match i with
  | .st _ offset9 => some (s.pcRelative offset9)
  | .sti _ offset9 => some (s.indirect offset9).1
  | .str _ baseR offset6 => some (s.basePlusOffset baseR offset6)
  | .addReg .. | .addImm .. | .andReg .. | .andImm .. | .notReg .. | .ld .. | .ldi .. | .ldr .. | .lea .. | .br .. | .jmp ..
  | .jsr .. | .jsrr .. | .rti | .trapGetc | .trap .. | .reserved => none

end Sys2Proof
end

