-- ==== Sys2Proof/Certificates/Slice0/Obligations.lean ====
section
/-! DEFINITION. The statements for the provers. A word's fields are written out by their bit positions (lowest bit, then
length); `P`, or `s.params`, is any legal value of the parameters of 00_scope.md R8; `s` is a state as an instruction finds it, with
`pc` at the instruction's address plus 1 (R13), unless the statement speaks of `step`. -/

open Sys2Proof Sys2Proof.Machine

/-! ## Encoding (30_encoding.md) -/

/-- One word of each family, written out from the spec's formats, decodes to the instruction it stands for. The opcode numbers are
the spec's defaults (log 5). -/
def Obligations.SpecWordsDecode : Prop :=
  decode Params.default 0b0001_010_000_0_00_001 = .addReg 2 0 1 ∧ decode Params.default 0b0101_000_000_1_00000 = .andImm 0 0 0 ∧
    decode Params.default 0b1001_001_000_111111 = .notReg 1 0 ∧ decode Params.default 0b0110_011_100_111110 = .ldr 3 4 (-2) ∧
    decode Params.default 0b1011_000_000000001 = .sti 0 1 ∧ decode Params.default 0b0000_010_000000011 = .br 0b010 3 ∧
    decode Params.default 0b0100_0_00_111_000000 = .jsrr 7 ∧ decode Params.default 0b1111_0000_00100000 = .trapGetc ∧
    decode Params.default 0b1111_0000_00100101 = .trap 0x25 ∧ decode Params.default 0b1000_000000000000 = .rti ∧
    decode Params.default 0b1101_000000000000 = .reserved

/-- Decoding an encoded well-formed instruction gives it back, for every form, every operand and every opcode map. -/
def Obligations.DecodeOfEncode : Prop := 
  ∀ (P : Params) (i : Instr), i.WellFormed → decode P (encode P i) = i

/-- Every word decodes to a well-formed instruction, and encoding that gives the word back in every bit that is not ignored
(R102, R103). -/
def Obligations.EncodeOfDecode : Prop :=
  ∀ (P : Params) (ir : Word), (decode P ir).WellFormed ∧
    encode P (decode P ir) &&& (decode P ir).significantBits = ir &&& (decode P ir).significantBits

/-- Ignored bits take no part: a word that agrees with another on the bits its form looks at decodes alike (R103). The masks
are `Instr.significantBits`. Rests on the spec's D6 (log 13). -/
def Obligations.IgnoredBitsTakeNoPart : Prop :=
  ∀ (P : Params) (ir ir' : Word), ir' &&& (decode P ir).significantBits = ir &&& (decode P ir).significantBits →
    decode P ir' = decode P ir

/-- A byte stream starts with an instruction exactly when it holds two bytes, big-endian as in an image (R64, R90); an encoded
instruction in front of any bytes is read back and the bytes are left. -/
def Obligations.ByteStreamsDecode : Prop :=
  ∀ P : Params, (∀ bs : List Byte, decodeBytes P bs = .error .truncated ↔ bs.length < 2) ∧
    (∀ hi lo : Byte, ∀ rest : List Byte, ∃ ir : Word, ir.toNat = hi.toNat * 256 + lo.toNat ∧
      decodeBytes P (hi :: lo :: rest) = .ok (decode P ir, rest)) ∧
    ∀ i : Instr, ∀ rest : List Byte, i.WellFormed → decodeBytes P (encodeBytes P i ++ rest) = .ok (i, rest)

/-- The words that fault (R104): exactly 0x8000..0x8FFF and 0xD000..0xDFFF set the latch when executed, and every other word
executes without fault. That executing answers a next state is the model's choice where a TRAP 0x20 finds no input (log 7) and where
the exception is taken (log 11). -/
def Obligations.ExactlyRtiAndReservedWordsFault : Prop :=
  ∀ (P : Params) (ir : Word) (s : State), s.fault = none → ∃ t, exec (decode P ir) s = .next t ∧
    ((0x8000 ≤ ir.toNat ∧ ir.toNat ≤ 0x8FFF ∨ 0xD000 ≤ ir.toNat ∧ ir.toNat ≤ 0xDFFF) →
      t.fault = some .unimplementedOpcode) ∧
    (¬ (0x8000 ≤ ir.toNat ∧ ir.toNat ≤ 0x8FFF ∨ 0xD000 ≤ ir.toNat ∧ ir.toNat ≤ 0xDFFF) → t.fault = none)

/-! ## Arithmetic and flags -/

/-- R10: sign extension of an N-bit field, N in 1..16, by both formulas of the rule, with its two laws; zero extension. -/
def Obligations.SignExtensionFollowsFormula : Prop :=
  ∀ (n : Nat), 1 ≤ n → n ≤ 16 → ∀ u : BitVec n,
    (sext u).toNat = sextNat n u.toNat ∧
    (sext u).toNat = ((u.toNat ^^^ 2 ^ (n - 1)) + 65536 - 2 ^ (n - 1)) % 65536 ∧
    (sext u).toNat % 2 ^ n = u.toNat ∧ (sext u).getLsbD 15 = u.getLsbD (n - 1) ∧ (zext u).toNat = u.toNat

/-- R140: the three operations of the ALU on the numbers, and the same adder, with wraparound, for every address. -/
def Obligations.AluComputesModulo : Prop :=
  (∀ a b : Word, (aluAdd a b).toNat = (a.toNat + b.toNat) % 65536) ∧
    (∀ (a b : Word) (k : Nat), (aluAnd a b).getLsbD k = (a.getLsbD k && b.getLsbD k)) ∧
    (∀ a : Word, (aluNot a).toNat = 65535 - a.toNat ∧ aluNot a = a ^^^ 0xFFFF) ∧
    (∀ (s : State) (offset9 : BitVec 9),
      (s.pcRelative offset9).toNat = (s.pc.toNat + sextNat 9 offset9.toNat) % 65536) ∧
    (∀ (s : State) (offset11 : BitVec 11),
      (s.pcRelative offset11).toNat = (s.pc.toNat + sextNat 11 offset11.toNat) % 65536) ∧
    ∀ (s : State) (baseR : Reg) (offset6 : BitVec 6),
      (s.basePlusOffset baseR offset6).toNat = ((s.reg baseR).toNat + sextNat 6 offset6.toNat) % 65536

/-- R28: `setcc(v)` leaves exactly one of N, Z and P set, the one of `v`, at the machine's positions for them, keeps bits 15:3,
and touches nothing else. With the spec's default positions the three are bits 2, 1 and 0 (log 4). -/
def Obligations.SetccLeavesExactlyOneFlag : Prop :=
  ∀ (s : State) (v : Word),
    (s.setcc v).psr.extractLsb' 3 13 = s.psr.extractLsb' 3 13 ∧
    (0x8000 ≤ v.toNat → ∀ p : Fin 3, (s.setcc v).psr.getLsbD p = decide (p = s.params.psrN)) ∧
    (v.toNat = 0 → ∀ p : Fin 3, (s.setcc v).psr.getLsbD p = decide (p = s.params.psrZ)) ∧
    (1 ≤ v.toNat → v.toNat ≤ 0x7FFF → ∀ p : Fin 3, (s.setcc v).psr.getLsbD p = decide (p = Config.psrP)) ∧
    FlagsFrom s.params s.psr v (s.setcc v).psr ∧ { s.setcc v with psr := s.psr } = s ∧
    (s.params = Params.default →
      (0x8000 ≤ v.toNat → (s.setcc v).psr.extractLsb' 0 3 = 0b100) ∧
      (v.toNat = 0 → (s.setcc v).psr.extractLsb' 0 3 = 0b010) ∧
      (1 ≤ v.toNat → v.toNat ≤ 0x7FFF → (s.setcc v).psr.extractLsb' 0 3 = 0b001))

/-- R30: bit 2 of the mask tests N, bit 1 Z, bit 0 P, wherever the machine keeps them; with the spec's default positions
`brtest(nzp)` is the bitwise AND of the mask with `psr[2:0]` (D5, log 4). BR is the only reader of `psr`: with any other status
register every other instruction ends in a state that differs in `psr` alone. -/
def Obligations.BranchTestComparesBitForBit : Prop :=
  (∀ (s : State) (nzp : BitVec 3),
    (s.brtest nzp = true ↔ (nzp.getLsbD 2 = true ∧ s.psr.getLsbD s.params.psrN = true) ∨
      (nzp.getLsbD 1 = true ∧ s.psr.getLsbD s.params.psrZ = true) ∨
      (nzp.getLsbD 0 = true ∧ s.psr.getLsbD Config.psrP = true)) ∧
    (s.params = Params.default → (s.brtest nzp = true ↔ nzp &&& s.psr.extractLsb' 0 3 ≠ 0))) ∧
  ∀ (i : Instr) (s t : State) (psr : Word), (∀ nzp offset9, i ≠ .br nzp offset9) → exec i s = .next t →
    ∃ psr', exec i { s with psr := psr } = .next { t with psr := psr' }

/-! ## The arbiter (20_memory.md) -/

/-- R54: what a read of each address returns and what it does to the state. That a character is zero-extended is the spec's D9
(log 14). -/
def Obligations.MemReadRoutesByAddress : Prop :=
  ∀ s : State,
    s.memRead s.params.kbsrAddr = (if s.cin = [] then 0 else s.params.readyMask, s) ∧
    (s.cin = [] → s.memRead s.params.kbdrAddr = (0, s)) ∧
    (∀ b rest, s.cin = b :: rest → ∃ v : Word, v.toNat = b.toNat ∧
      s.memRead s.params.kbdrAddr = (v, { s with cin := rest })) ∧
    s.memRead s.params.dsrAddr = (s.params.readyMask, s) ∧ s.memRead s.params.ddrAddr = (0, s) ∧
    ∀ a, a ≠ s.params.kbsrAddr → a ≠ s.params.kbdrAddr → a ≠ s.params.dsrAddr → a ≠ s.params.ddrAddr →
      s.memRead a = (s.rawRead a, s)

/-- R61: what a write to each address does; a plain write reaches its cell and no other. That DDR
emits the low byte is the spec's D10 (log 14). -/
def Obligations.MemWriteRoutesByAddress : Prop :=
  ∀ (s : State) (v : Word),
    s.memWrite s.params.kbsrAddr v = s ∧ s.memWrite s.params.kbdrAddr v = s ∧ s.memWrite s.params.dsrAddr v = s ∧
    (∃ b : Byte, b.toNat = v.toNat % 256 ∧ s.memWrite s.params.ddrAddr v = { s with cout := s.cout ++ [b] }) ∧
    ∀ a, a ≠ s.params.kbsrAddr → a ≠ s.params.kbdrAddr → a ≠ s.params.dsrAddr → a ≠ s.params.ddrAddr →
      (s.memWrite a v).rawRead a = v ∧
      (∀ a', a' ≠ a → (s.memWrite a v).rawRead a' = s.rawRead a') ∧
      { s.memWrite a v with mem := s.mem } = s

/-- A store followed by a load of the same address: at a plain address the load returns the stored word; at a device register it
returns the device's read value, whatever was stored (R159). -/
def Obligations.StoreThenLoadSameAddress : Prop :=
  ∀ (s : State) (sr dr base : Reg) (offset6 : BitVec 6),
    let ea := s.basePlusOffset base offset6
    ∃ t u, exec (.str sr base offset6) s = .next t ∧ exec (.ldr dr base offset6) t = .next u ∧
      (isDeviceAddr s.params ea = false → u.reg dr = s.reg sr) ∧
      (isDeviceAddr s.params ea = true → u.reg dr = (s.memRead ea).1)

/-! ## Operate instructions (41_operate.md) -/

/-- R141: ADD, register form: encoding, sum modulo 65536, flags, frame. -/
def Obligations.AddRegister : Prop :=
  (∀ (P : Params) (ir : Word), ir.extractLsb' 12 4 = 0b0001 → ir.getLsbD 5 = false →
    decode P ir = .addReg (ir.extractLsb' 9 3).toFin (ir.extractLsb' 6 3).toFin (ir.extractLsb' 0 3).toFin) ∧
  ∀ (dr sr1 sr2 : Reg) (s : State), ∃ t, exec (.addReg dr sr1 sr2) s = .next t ∧
    (t.reg dr).toNat = ((s.reg sr1).toNat + (s.reg sr2).toNat) % 65536 ∧ WroteResult s t dr ∧ t.cin = s.cin

/-- R142: ADD, immediate form: encoding, sum with the sign-extended immediate, flags, frame. -/
def Obligations.AddImmediate : Prop :=
  (∀ (P : Params) (ir : Word), ir.extractLsb' 12 4 = 0b0001 → ir.getLsbD 5 = true →
    decode P ir = .addImm (ir.extractLsb' 9 3).toFin (ir.extractLsb' 6 3).toFin (ir.extractLsb' 0 5)) ∧
  ∀ (dr sr1 : Reg) (imm5 : BitVec 5) (s : State), ∃ t, exec (.addImm dr sr1 imm5) s = .next t ∧
    (t.reg dr).toNat = ((s.reg sr1).toNat + sextNat 5 imm5.toNat) % 65536 ∧ WroteResult s t dr ∧ t.cin = s.cin

/-- R143: AND, register form: encoding, bitwise AND, flags, frame. -/
def Obligations.AndRegister : Prop :=
  (∀ (P : Params) (ir : Word), ir.extractLsb' 12 4 = 0b0101 → ir.getLsbD 5 = false →
    decode P ir = .andReg (ir.extractLsb' 9 3).toFin (ir.extractLsb' 6 3).toFin (ir.extractLsb' 0 3).toFin) ∧
  ∀ (dr sr1 sr2 : Reg) (s : State), ∃ t, exec (.andReg dr sr1 sr2) s = .next t ∧
    (∀ k, (t.reg dr).getLsbD k = ((s.reg sr1).getLsbD k && (s.reg sr2).getLsbD k)) ∧
    WroteResult s t dr ∧ t.cin = s.cin

/-- R144: AND, immediate form: encoding, AND with the sign-extended immediate (its bits above bit 4 are bit 4), flags, frame. -/
def Obligations.AndImmediate : Prop :=
  (∀ (P : Params) (ir : Word), ir.extractLsb' 12 4 = 0b0101 → ir.getLsbD 5 = true →
    decode P ir = .andImm (ir.extractLsb' 9 3).toFin (ir.extractLsb' 6 3).toFin (ir.extractLsb' 0 5)) ∧
  ∀ (dr sr1 : Reg) (imm5 : BitVec 5) (s : State), ∃ t, exec (.andImm dr sr1 imm5) s = .next t ∧
    (∀ k, (t.reg dr).getLsbD k = ((s.reg sr1).getLsbD k && imm5.getLsbD (min k 4))) ∧
    WroteResult s t dr ∧ t.cin = s.cin

/-- NOT (R145): encoding, complement, flags, frame. -/
def Obligations.NotComplements : Prop :=
  (∀ (P : Params) (ir : Word), ir.extractLsb' 12 4 = P.opNot →
    decode P ir = .notReg (ir.extractLsb' 9 3).toFin (ir.extractLsb' 6 3).toFin) ∧
  ∀ (dr sr1 : Reg) (s : State), ∃ t, exec (.notReg dr sr1) s = .next t ∧
    (t.reg dr).toNat = 65535 - (s.reg sr1).toNat ∧ WroteResult s t dr ∧ t.cin = s.cin

/-! ## Loads, LEA and stores (42_load_store.md) -/

/-- LD (R151): encoding, the word that `MemRead` of `pc + sext_9(offset9)` returns, flags, frame; `cin` is as the read leaves
it. -/
def Obligations.LoadPcRelative : Prop :=
  (∀ (P : Params) (ir : Word), ir.extractLsb' 12 4 = P.opLd →
    decode P ir = .ld (ir.extractLsb' 9 3).toFin (ir.extractLsb' 0 9)) ∧
  ∀ (dr : Reg) (offset9 : BitVec 9) (s : State), ∃ (ea : Word) (t : State),
    ea.toNat = (s.pc.toNat + sextNat 9 offset9.toNat) % 65536 ∧ exec (.ld dr offset9) s = .next t ∧
    t.reg dr = (s.memRead ea).1 ∧ WroteResult s t dr ∧ t.cin = (s.memRead ea).2.cin

/-- LDI (R152): encoding, the pointer read and then the data read through the state that the first leaves, flags from the data,
frame. -/
def Obligations.LoadIndirect : Prop :=
  (∀ (P : Params) (ir : Word), ir.extractLsb' 12 4 = P.opLdi →
    decode P ir = .ldi (ir.extractLsb' 9 3).toFin (ir.extractLsb' 0 9)) ∧
  ∀ (dr : Reg) (offset9 : BitVec 9) (s : State), ∃ (pa : Word) (t : State),
    pa.toNat = (s.pc.toNat + sextNat 9 offset9.toNat) % 65536 ∧ exec (.ldi dr offset9) s = .next t ∧
    t.reg dr = ((s.memRead pa).2.memRead (s.memRead pa).1).1 ∧ WroteResult s t dr ∧
    t.cin = ((s.memRead pa).2.memRead (s.memRead pa).1).2.cin

/-- LDR (R153): encoding, the word at `x[baseR] + sext_6(offset6)` with the base read before `dr` is written, flags, frame. -/
def Obligations.LoadBaseOffset : Prop :=
  (∀ (P : Params) (ir : Word), ir.extractLsb' 12 4 = P.opLdr →
    decode P ir = .ldr (ir.extractLsb' 9 3).toFin (ir.extractLsb' 6 3).toFin (ir.extractLsb' 0 6)) ∧
  ∀ (dr baseR : Reg) (offset6 : BitVec 6) (s : State), ∃ (ea : Word) (t : State),
    ea.toNat = ((s.reg baseR).toNat + sextNat 6 offset6.toNat) % 65536 ∧
    exec (.ldr dr baseR offset6) s = .next t ∧
    t.reg dr = (s.memRead ea).1 ∧ WroteResult s t dr ∧ t.cin = (s.memRead ea).2.cin

/-- LEA (R154): encoding, the address itself with no access, flags from it, frame. -/
def Obligations.LoadEffectiveAddress : Prop :=
  (∀ (P : Params) (ir : Word), ir.extractLsb' 12 4 = P.opLea →
    decode P ir = .lea (ir.extractLsb' 9 3).toFin (ir.extractLsb' 0 9)) ∧
  ∀ (dr : Reg) (offset9 : BitVec 9) (s : State), ∃ t, exec (.lea dr offset9) s = .next t ∧
    (t.reg dr).toNat = (s.pc.toNat + sextNat 9 offset9.toNat) % 65536 ∧ WroteResult s t dr ∧ t.cin = s.cin

/-- ST (R155): encoding, `x[sr]` stored at `pc + sext_9(offset9)` (one byte out at DDR, nothing at the other device registers),
nothing else. -/
def Obligations.StorePcRelative : Prop :=
  (∀ (P : Params) (ir : Word), ir.extractLsb' 12 4 = P.opSt →
    decode P ir = .st (ir.extractLsb' 9 3).toFin (ir.extractLsb' 0 9)) ∧
  ∀ (sr : Reg) (offset9 : BitVec 9) (s : State), ∃ t, exec (.st sr offset9) s = .next t ∧
    StoredAt s t (s.pcRelative offset9) (s.reg sr) ∧ t.cin = s.cin

/-- STI (R156): encoding, the pointer read from `pc + sext_9(offset9)` through the arbiter, then `x[sr]` stored at it, nothing
else; `cin` is as the pointer read leaves it. -/
def Obligations.StoreIndirect : Prop :=
  (∀ (P : Params) (ir : Word), ir.extractLsb' 12 4 = P.opSti →
    decode P ir = .sti (ir.extractLsb' 9 3).toFin (ir.extractLsb' 0 9)) ∧
  ∀ (sr : Reg) (offset9 : BitVec 9) (s : State), ∃ t, exec (.sti sr offset9) s = .next t ∧
    StoredAt s t (s.memRead (s.pcRelative offset9)).1 (s.reg sr) ∧
    t.cin = (s.memRead (s.pcRelative offset9)).2.cin

/-- STR (R157): encoding, `x[sr]` stored at `x[baseR] + sext_6(offset6)`, nothing else. -/
def Obligations.StoreBaseOffset : Prop :=
  (∀ (P : Params) (ir : Word), ir.extractLsb' 12 4 = P.opStr →
    decode P ir = .str (ir.extractLsb' 9 3).toFin (ir.extractLsb' 6 3).toFin (ir.extractLsb' 0 6)) ∧
  ∀ (sr baseR : Reg) (offset6 : BitVec 6) (s : State), ∃ t, exec (.str sr baseR offset6) s = .next t ∧
    StoredAt s t (s.basePlusOffset baseR offset6) (s.reg sr) ∧ t.cin = s.cin

/-! ## Control transfer (43_control.md) -/

/-- BR (R170): encoding; taken to `pc + sext_9(offset9)` when a flag that the mask names is set, n naming N, z naming Z and p
naming P, else to the next instruction; nothing but `pc` changes. With the default positions this is R170's AND of the mask with
`psr[2:0]` (D5; `BranchTestComparesBitForBit`); that a mask bit keeps its flag's letter at other positions is the model's choice (log 4). -/
def Obligations.BranchOnFlags : Prop :=
  (∀ (P : Params) (ir : Word), ir.extractLsb' 12 4 = P.opBr → decode P ir = .br (ir.extractLsb' 9 3) (ir.extractLsb' 0 9)) ∧
  ∀ (nzp : BitVec 3) (offset9 : BitVec 9) (s : State), ∃ target : Word,
    exec (.br nzp offset9) s = .next { s with pc := target } ∧
    ((nzp.getLsbD 2 && s.psr.getLsbD s.params.psrN || nzp.getLsbD 1 && s.psr.getLsbD s.params.psrZ ||
        nzp.getLsbD 0 && s.psr.getLsbD Config.psrP) = true →
      target.toNat = (s.pc.toNat + sextNat 9 offset9.toNat) % 65536) ∧
    ((nzp.getLsbD 2 && s.psr.getLsbD s.params.psrN || nzp.getLsbD 1 && s.psr.getLsbD s.params.psrZ ||
        nzp.getLsbD 0 && s.psr.getLsbD Config.psrP) = false → target = s.pc)

/-- In a state with a legal `psr` a branch on all three flags is always taken; a branch on none never is, in any state (R27,
R108). -/
def Obligations.BranchOnAllOrNone : Prop :=
  ∀ (s : State) (offset9 : BitVec 9),
    (s.PsrLegal → exec (.br 0b111 offset9) s = .next { s with pc := s.pcRelative offset9 }) ∧
    exec (.br 0b000 offset9) s = .next s

/-- JMP (R171): encoding, `pc` takes the register, nothing else changes. -/
def Obligations.JumpThroughRegister : Prop :=
  (∀ (P : Params) (ir : Word), ir.extractLsb' 12 4 = P.opJmp → decode P ir = .jmp (ir.extractLsb' 6 3).toFin) ∧
  ∀ (baseR : Reg) (s : State), exec (.jmp baseR) s = .next { s with pc := s.reg baseR }

/-- JSR (R172): encoding, `pc + sext_11(offset11)` as target, R7 the return address, nothing else. -/
def Obligations.JumpToSubroutine : Prop :=
  (∀ (P : Params) (ir : Word), ir.extractLsb' 12 4 = P.opJsr → ir.getLsbD 11 = true → decode P ir = .jsr (ir.extractLsb' 0 11)) ∧
  ∀ (offset11 : BitVec 11) (s : State), ∃ t, exec (.jsr offset11) s = .next t ∧
    t.pc.toNat = (s.pc.toNat + sextNat 11 offset11.toNat) % 65536 ∧ LinkedTo s t s.pc ∧ t.cin = s.cin

/-- JSRR (R173): encoding, the target is the base register's value BEFORE the instruction, R7 included, and R7 the return
address whatever the base. -/
def Obligations.JumpToSubroutineRegister : Prop :=
  (∀ (P : Params) (ir : Word), ir.extractLsb' 12 4 = P.opJsr → ir.getLsbD 11 = false → decode P ir = .jsrr (ir.extractLsb' 6 3).toFin) ∧
  ∀ (baseR : Reg) (s : State), ∃ t, exec (.jsrr baseR) s = .next t ∧ t.pc = s.reg baseR ∧
    LinkedTo s t s.pc ∧ t.cin = s.cin

/-! ## TRAP, RTI, RESERVED (44_trap_system.md) -/

/-- TRAP (R181): encoding, for every vector other than 0x20 and whatever bits 11:8 hold (D20, log 21); R7 the return address, `pc`
the word that `MemRead` of the zero-extended vector returns, nothing else: no `psr` save. Where no device address lies in the
vector table, which D3 has stated here and which the default addresses meet, that is the table entry and the read has no side
effect. The second clause holds for the term `.trap 0x20` too, which no word decodes to and which `exec` dispatches like any other
vector (log 19). -/
def Obligations.TrapThroughVectorTable : Prop :=
  (∀ (P : Params) (ir : Word), ir.extractLsb' 12 4 = P.opTrap → ir.extractLsb' 0 8 ≠ 0x20 →
    decode P ir = .trap (ir.extractLsb' 0 8)) ∧
  (∀ (vector : BitVec 8) (s : State), ∃ (entry : Word) (t : State), entry.toNat = vector.toNat ∧
    exec (.trap vector) s = .next t ∧ t.pc = (s.memRead entry).1 ∧ LinkedTo s t s.pc ∧ t.cin = (s.memRead entry).2.cin ∧
    (VectorTablePlain s.params → t.pc = s.rawRead entry ∧ t.cin = s.cin)) ∧
  VectorTablePlain Params.default

/-- TRAP 0x20 (R182): encoding, whatever bits 11:8 hold (D20, log 21); with input waiting the first byte, zero-extended, goes to R0
and leaves `cin`, and nothing else changes, R7, `psr` and memory included. That the flags stay is the spec's D7 (log 14). -/
def Obligations.TrapGetcTakesOneByte : Prop :=
  (∀ (P : Params) (ir : Word), ir.extractLsb' 12 4 = P.opTrap → ir.extractLsb' 0 8 = 0x20 → decode P ir = .trapGetc) ∧
  ∀ (s : State) (b : Byte) (rest : List Byte), s.cin = b :: rest → ∃ t, exec .trapGetc s = .next t ∧
    (t.reg 0).toNat = b.toNat ∧ (∀ r, r ≠ 0 → t.reg r = s.reg r) ∧ t.cin = rest ∧
    t.pc = s.pc ∧ t.psr = s.psr ∧ t.mem = s.mem ∧ t.cout = s.cout ∧ t.fault = s.fault ∧ t.arrivals = s.arrivals ∧
    t.params = s.params

/-- The hold (R129): in a held state a step changes nothing, the environment's next moves apart; with no input to come it changes
nothing at all, and as soon as a byte is appended the same instruction completes, with the byte zero-extended in R0 (D7, log 14)
and `pc` at its address plus 1 (D2, log 6). Holding as a step that changes nothing is the model's choice (log 7), when bytes arrive
is data of the state (log 8). -/
def Obligations.HeldCoreWaits : Prop :=
  ∀ s : State, (s.environmentMove.Held → step s = .next s.environmentMove) ∧
    (s.arrivals = [] → s.Held → step s = .next s) ∧
    ∀ b : Byte, s.Held → s.arrivals = [[b]] → ∃ t, step s = .next t ∧ (t.reg 0).toNat = b.toNat ∧
      t.pc = s.pc + 1 ∧ t.cin = [] ∧ t.mem = s.mem

/-- R183: RTI: encoding, and in every state the fault and nothing else: no register, flag, memory or `pc` change. -/
def Obligations.RtiFaults : Prop :=
  (∀ (P : Params) (ir : Word), ir.extractLsb' 12 4 = 0b1000 → decode P ir = .rti) ∧
  ∀ s : State, exec .rti s = .next { s with fault := some .unimplementedOpcode }

/-- R184: RESERVED: encoding, and the same fault as RTI. -/
def Obligations.ReservedFaults : Prop :=
  (∀ (P : Params) (ir : Word), ir.extractLsb' 12 4 = 0b1101 → decode P ir = .reserved) ∧
  ∀ s : State, exec .reserved s = .next { s with fault := some .unimplementedOpcode } ∧ exec .reserved s = exec .rti s

/-- R190: the exception sets the latch, changes nothing else, and the run is over: the session's next core step reports
`UnimplementedOpcode` to the host and leaves the machine as it is. -/
def Obligations.ExceptionEndsRun : Prop :=
  ∀ s : State, s.raiseUnimplementedOpcode = { s with fault := some .unimplementedOpcode } ∧
    ({ machine := s.raiseUnimplementedOpcode, running := true } : Session).coreStep =
      .next (.runUnimplementedOpcode, { machine := s.raiseUnimplementedOpcode, running := false })

/-! ## The whole machine -/

/-- After `create()` (R44, R210): every register 0, `pc` 0x3000, `psr` the Z flag alone, every cell 0 but for the MCR with its run
bit set, no output, no fault. That `cin` and the environment's schedule are empty is the model's choice (logs 8, 9). The reset
state is that of the spec's default parameters (logs 2, 4). -/
def Obligations.ResetLeaves : Prop :=
  (∀ P : Params, (∀ r, (State.create P).reg r = 0) ∧ (State.create P).pc = 0x3000 ∧
    (∀ k, (State.create P).psr.getLsbD k = decide (k = P.psrZ.val)) ∧
    (∀ a, (State.create P).rawRead a = if a = P.mcrAddr then 0x8000 else 0) ∧
    (State.create P).cin = [] ∧ (State.create P).cout = [] ∧ (State.create P).fault = none ∧
    (State.create P).arrivals = [] ∧ (State.create P).params = P) ∧
  State.reset = State.create Params.default ∧ State.reset.psr = 0x0002 ∧ State.reset.rawRead 0xFFFE = 0x8000

/-- The state after `create()` meets the invariant, whatever the parameters: exactly one flag, memory in canonical form. -/
def Obligations.ResetMeetsInvariant : Prop := (∀ P : Params, (State.create P).Inv) ∧ State.reset.Inv

/-- The parameters are fixed for the life of a machine (R8, log 23): no step, no loader call and no other move of the host or the
console environment changes them, and every machine of one implementation has the same. -/
def Obligations.ParametersNeverChange : Prop :=
  (∀ s t : State, step s = .next t → t.params = s.params) ∧
  (∀ (t t' : Session) (i : Interaction) (r : Reply), t.interact i = .next (r, t') → t'.machine.params = t.machine.params) ∧
  ∀ (w w' : World) (m : WorldMove) (r : Reply), w.move m = .next (r, w') →
    (∀ t ∈ w.machines, t.machine.params = w.params) →
    w'.params = w.params ∧ ∀ t ∈ w'.machines, t.machine.params = w'.params

/-- Every step keeps the invariant: `psr` holds exactly one of N, Z, P and zeros above (R26, R27), and memory keeps its canonical
form. -/
def Obligations.StepKeepsInvariant : Prop := ∀ s t : State, s.Inv → step s = .next t → t.Inv

/-- A step runs the decoded instruction (R120): from a running state, after the environment's moves `e`, step is `exec` of the
instruction decoded from the word that `MemRead` of `pc` returns, on the state that the read leaves with `pc` moved on by one; and
where a plain cell holds a well-formed instruction's word, it is that instruction. When `pc` moves on is the spec's D2 (log 6),
when input arrives is data of the state (log 8). -/
def Obligations.StepRunsDecodedInstruction : Prop :=
  ∀ s : State, s.Running →
    (let e := s.environmentMove
     step s = exec (decode s.params (e.memRead e.pc).1) { (e.memRead e.pc).2 with pc := e.pc + 1 }) ∧
    ∀ i : Instr, i.WellFormed → isDeviceAddr s.params s.pc = false →
      s.rawRead s.pc = encode s.params i →
      step s = exec i { s.environmentMove with pc := s.pc + 1 }

/-- When the core steps (R120, R131): a faulted state gives no step and reports the fault, a final one gives no step, and in every
other state the step is enabled; no state is refused. How the two ends are answered is the model's choice (logs 10, 11). So is it
that a state held after the environment's moves, in which R131 has no enabled step, steps to itself: the hold is shown as a step
(log 7). -/
def Obligations.StepIsEnabledUnlessRunEnded : Prop :=
  ∀ s : State, (s.Faulted → step s = .fault .unimplementedOpcode) ∧ (s.Final → step s = .fault .halted) ∧
    (s.Running → ∃ t, step s = .next t) ∧ (s.environmentMove.Held → step s = .next s.environmentMove) ∧
    (s.Faulted ∨ s.Final ∨ s.Running)

/-- The run/halt test (R121): with bit 15 of the MCR cell 0 the run ends at once with Success, nothing fetched or changed, the
other bits of the cell not mattering; and an instruction that stores such a word to `MCR_ADDR` completes and is the last. How
`step` answers a halted run is the model's choice (log 10), that the raw cell is tested is the spec's D16 (log 20). -/
def Obligations.HaltTestPrecedesFetch : Prop :=
  (∀ s : State, s.runBit = (s.rawRead s.params.mcrAddr).getLsbD 15) ∧
  (∀ t : Session, t.running = true → t.machine.fault = none →
    (t.machine.rawRead t.machine.params.mcrAddr).getLsbD 15 = false →
    step t.machine = .fault .halted ∧ t.coreStep = .next (.runSuccess, { machine := t.machine, running := false })) ∧
  ∀ (i : Instr) (s : State) (sr : Reg), i.storeAddress s = some s.params.mcrAddr → s.fault = none →
    ((∃ offset9, i = .st sr offset9) ∨ (∃ offset9, i = .sti sr offset9) ∨ ∃ baseR offset6, i = .str sr baseR offset6) →
    (s.reg sr).getLsbD 15 = false →
    ∃ t, exec i s = .next t ∧ t.rawRead s.params.mcrAddr = s.reg sr ∧ t.pc = s.pc ∧ step t = .fault .halted

/-- A step that answers a next state has set the fault latch exactly when the word it fetched has the opcode of RTI or RESERVED
(R191). That the faulting step is a next state with the latch set is the model's choice (log 11). -/
def Obligations.OnlyFaultingOpcodesSetLatch : Prop :=
  ∀ s t : State, step s = .next t →
    (t.fault ≠ none ↔ (s.environmentMove.memRead s.pc).1.extractLsb' 12 4 = 0b1000 ∨
      (s.environmentMove.memRead s.pc).1.extractLsb' 12 4 = 0b1101)

/-- R29: ADD, AND, NOT, LD, LDI, LDR and LEA set the flags from the value they wrote to `x[dr]`; no other instruction, the loader
or any memory write changes `psr`. -/
def Obligations.PsrWritersAreTheSeven : Prop :=
  (∀ (i : Instr) (s t : State), exec i s = .next t →
    (i.setsFlags = true → ∃ dr, i.writtenReg = some dr ∧ FlagsFrom s.params s.psr (t.reg dr) t.psr) ∧
    (i.setsFlags = false → t.psr = s.psr)) ∧
  (∀ (s t : State) (bytes : List Byte) (r : LoadResult), s.load bytes = .next (r, t) → t.psr = s.psr) ∧
  ∀ (s : State) (a v : Word), (s.memWrite a v).psr = s.psr

/-- Registers by instruction (R22's table): a step changes no general register but the one its instruction writes. -/
def Obligations.OnlyDestinationRegisterChanges : Prop :=
  ∀ s t : State, step s = .next t → ∀ r, s.environmentMove.nextInstr.writtenReg ≠ some r → t.reg r = s.reg r

/-- Memory by instruction (R42, R72): a step changes no byte of memory but those of the one cell that its store instruction
addresses, and no cell of a device register (R32). The address is computed as the meaning computes it, on the state after the
fetch; the byte cells of machine cell `a` are `2a` and `2a + 1` (log 1). -/
def Obligations.OnlyStoredCellChanges : Prop :=
  ∀ s t : State, step s = .next t →
    (∀ k, (∀ a, s.environmentMove.nextInstr.storeAddress s.environmentMove.fetch.2 = some a →
        isDeviceAddr s.params a = false → k ≠ 2 * a.toNat ∧ k ≠ 2 * a.toNat + 1) →
      t.rawByte k = s.rawByte k) ∧
    ∀ a, isDeviceAddr s.params a = true → t.rawRead a = s.rawRead a

/-- What the array holds at the four device addresses can never be observed (R32): two states that differ only there step alike, to
states that differ only there. -/
def Obligations.DeviceCellsAreUnobservable : Prop :=
  ∀ s t : State, SameButDeviceCells s t →
    (∀ s', step s = .next s' → ∃ t', step t = .next t' ∧ SameButDeviceCells s' t') ∧
    ∀ f, step s = .fault f → step t = .fault f

/-- The program counter by instruction (R24's table): unless its instruction transfers control, or is the TRAP 0x20 that can hold,
a step leaves `pc` at the instruction's address plus 1, wrapping at the top (D2, log 6). -/
def Obligations.PcAdvancesByOne : Prop :=
  ∀ s t : State, step s = .next t → s.environmentMove.nextInstr.movesPc = false →
    t.pc.toNat = (s.pc.toNat + 1) % 65536

/-- Output only grows (R38): a step appends at most one byte to `cout`, and only for a store instruction that addresses DDR. -/
def Obligations.OutputGrowsOnlyByDdrStores : Prop :=
  ∀ s t : State, step s = .next t →
    t.cout = s.cout ∨
      (s.environmentMove.nextInstr.storeAddress s.environmentMove.fetch.2 = some s.params.ddrAddr ∧
        ∃ b : Byte, t.cout = s.cout ++ [b])

/-- Input order (R38, R77): what a step leaves in `cin` is the end of what was there followed by what arrived: bytes are taken from
the front only, and none is lost behind them; the schedule loses its head alone. -/
def Obligations.InputIsTakenFromFront : Prop :=
  ∀ s t : State, step s = .next t → t.cin <:+ s.cin ++ s.arriving ∧ t.arrivals = s.arrivals.tail

/-- Executing from device addresses (R123): the word each gives and its effect on `cin`; none ever gives a TRAP (log 23); what executes
under the default ready mask and number of BR (logs 3, 5). That a fetch has the device's read behaviour is the spec's D15 (log 20). -/
def Obligations.FetchFromDevices : Prop :=
  ∀ s : State,
    (s.pc = s.params.kbsrAddr → s.fetch.1 = (if s.cin = [] then 0 else s.params.readyMask) ∧ s.fetch.2.cin = s.cin) ∧
    (s.pc = s.params.kbdrAddr → s.fetch.1.toNat = (match s.cin with | b :: _ => b.toNat | [] => 0) ∧
      s.fetch.2.cin = s.cin.tail) ∧
    (s.pc = s.params.dsrAddr → s.fetch.1 = s.params.readyMask ∧ s.fetch.2.cin = s.cin) ∧
    (s.pc = s.params.ddrAddr → s.fetch.1 = 0 ∧ s.fetch.2.cin = s.cin) ∧
    (s.pc = s.params.mcrAddr → s.runBit = true → (s.fetch.1).getLsbD 15 = true ∧ s.fetch.2.cin = s.cin) ∧
    (isDeviceAddr s.params s.pc = true → s.nextInstr ≠ .trapGetc ∧ ∀ vector, s.nextInstr ≠ .trap vector) ∧
    (s.params.readyMask = 0x8000 → s.params.opBr = 0b0000 →
      (s.pc = s.params.kbsrAddr → s.nextInstr = (if s.cin = [] then .br 0 0 else .rti)) ∧
      (s.pc = s.params.kbdrAddr → ∃ offset9, s.nextInstr = .br 0 offset9) ∧
      (s.pc = s.params.dsrAddr → s.nextInstr = .rti) ∧ (s.pc = s.params.ddrAddr → s.nextInstr = .br 0 0))

/-- Self-modifying code (R75): after a step whose ST, STI or STR stores a register to the cell of the very next instruction, the
next step executes the stored word (D15, log 20). The cell is a plain one; it may be the MCR cell if the word keeps the run bit
(R121). -/
def Obligations.StoreIsSeenByNextFetch : Prop :=
  ∀ (s : State) (sr : Reg), s.Running →
    ((∃ offset9, s.environmentMove.nextInstr = .st sr offset9) ∨ (∃ offset9, s.environmentMove.nextInstr = .sti sr offset9) ∨
      ∃ baseR offset6, s.environmentMove.nextInstr = .str sr baseR offset6) →
    s.environmentMove.nextInstr.storeAddress s.environmentMove.fetch.2 = some (s.pc + 1) →
    isDeviceAddr s.params (s.pc + 1) = false → (s.pc + 1 = s.params.mcrAddr → (s.reg sr).getLsbD 15 = true) →
    ∃ t, step s = .next t ∧ t.pc = s.pc + 1 ∧
      step t = exec (decode s.params (s.reg sr)) { t.environmentMove with pc := s.pc + 2 }

/-! ## The host interface (70_reset_and_hazards.md) -/

/-- The image format (R217): the word count is half the bytes after the origin, rounded down, and word `i` is the big-endian pair at
`2 + 2i`. -/
def Obligations.ImageWordsAreBigEndian : Prop :=
  ∀ rest : List Byte, (wordsOfBytes rest).length = rest.length / 2 ∧
    ∀ k hi lo, rest[2 * k]? = some hi → rest[2 * k + 1]? = some lo →
      ∃ w : Word, (wordsOfBytes rest)[k]? = some w ∧ w.toNat = hi.toNat * 256 + lo.toNat

/-- A successful load (R218): the words stand from the origin upward, every other cell, the registers, the flags, the console and
the latch are as before, and `pc` is the origin. That the copy covers the MCR and device cells is the spec's D23 (log 15). -/
def Obligations.LoadRoundTrip : Prop :=
  ∀ (s : State) (hi lo : Byte) (rest : List Byte), ∃ origin : Word, origin.toNat = hi.toNat * 256 + lo.toNat ∧
    (origin.toNat + rest.length / 2 ≤ 65536 → ∃ t, s.load (hi :: lo :: rest) = .next (.success, t) ∧
      (∀ (k : Nat) (w a : Word), (wordsOfBytes rest)[k]? = some w → a.toNat = origin.toNat + k →
        t.rawRead a = w) ∧
      (∀ a : Word, (a.toNat < origin.toNat ∨ origin.toNat + rest.length / 2 ≤ a.toNat) →
        t.rawRead a = s.rawRead a) ∧
      { t with mem := s.mem, pc := s.pc } = s ∧ t.pc = origin ∧ (s.memWf = true → t.memWf = true))

/-- R220: a load fails with `InputTooLarge` exactly when `origin + word_count > 65536`, and then the state is unchanged. -/
def Obligations.LoadTooLargeChangesNothing : Prop :=
  ∀ (s : State) (hi lo : Byte) (rest : List Byte),
    (hi.toNat * 256 + lo.toNat + rest.length / 2 > 65536 →
      s.load (hi :: lo :: rest) = .next (.inputTooLarge, s)) ∧
    (hi.toNat * 256 + lo.toNat + rest.length / 2 ≤ 65536 → ∃ t, s.load (hi :: lo :: rest) = .next (.success, t))

/-- The host interactions with one machine (R231, R212, R216, R219, R221): nothing executes before `run`; a buffer with an origin is
loaded and the host gets the loader's result; the loader and `run` are refused during a run and a buffer without an origin always;
`run` changes nothing and is refused on a faulted state; a source that yields nothing changes nothing; a core step within a run is
`step`, and at the run's end the host gets the result and the machine as it stands (logs 10, 11); console input appends one byte; a read of the output gives the bytes emitted so far, oldest first,
and changes nothing, at any time. The refusals follow the spec's D17, D21 and D24 (logs 11, 15, 18). -/
def Obligations.HostInteractionsAreGuarded : Prop :=
  (∀ t : Session, t.running = false →
    t.interact .coreStep = .refused .noRunInProgress ∧
    (t.machine.fault = none → t.interact .run = .next (.done, { machine := t.machine, running := true })) ∧
    (t.machine.Faulted → t.interact .run = .refused .runAfterFault) ∧
    (∀ bytes, bytes.length < 2 → t.interact (.load bytes) = .refused .imageTooShort) ∧
    (∀ bytes, 2 ≤ bytes.length → ∃ r s, t.machine.load bytes = .next (r, s) ∧
      t.interact (.load bytes) = .next (.loaded r, { machine := s, running := false })) ∧
    t.interact (.loadFromSource none) = .next (.loaded .inputNotFound, t) ∧
    ∀ bytes, t.interact (.loadFromSource (some bytes)) = t.interact (.load bytes)) ∧
  (∀ t : Session, t.running = true →
    t.interact .run = .refused .runInProgress ∧ (∀ bytes, t.interact (.load bytes) = .refused .runInProgress) ∧
    (∀ source, t.interact (.loadFromSource source) = .refused .runInProgress) ∧
    (∀ s, step t.machine = .next s → t.interact .coreStep = .next (.done, { machine := s, running := true })) ∧
    (step t.machine = .fault .halted →
      t.interact .coreStep = .next (.runSuccess, { machine := t.machine, running := false })) ∧
    (step t.machine = .fault .unimplementedOpcode →
      t.interact .coreStep = .next (.runUnimplementedOpcode, { machine := t.machine, running := false }))) ∧
  ∀ (t : Session) (b : Byte),
    t.interact (.consoleInput b) =
      .next (.done, { machine := { t.machine with cin := t.machine.cin ++ [b] }, running := t.running }) ∧
    t.interact .consoleOutput = .next (.output t.machine.cout, t)

/-- Several machines (R211, R203): `create()` makes one machine more, in the state of reset and not running, and touches no other; a
move on one machine touches no other, and its answer and outcome depend on that machine alone; and nothing but `create()` resets:
no interaction clears a fault latch. Numbering the machines is the model's own (log 18). -/
def Obligations.MachinesAreIndependent : Prop :=
  (∀ w : World, ∃ w', w.move .create = .next (.created w.machines.length (State.create w.params), w') ∧
    w'.machines[w.machines.length]? = some { machine := State.create w.params, running := false } ∧
    w'.machines.length = w.machines.length + 1 ∧
    ∀ m, m < w.machines.length → w'.machines[m]? = w.machines[m]?) ∧
  (∀ (w w' : World) (n : Nat) (i : Interaction) (r : Reply), w.move (.on n i) = .next (r, w') →
    w'.machines.length = w.machines.length ∧ ∀ m, m ≠ n → w'.machines[m]? = w.machines[m]?) ∧
  (∀ (v w v' : World) (n : Nat) (i : Interaction) (r : Reply), v.machines[n]? = w.machines[n]? →
    v.move (.on n i) = .next (r, v') →
    ∃ w', w.move (.on n i) = .next (r, w') ∧ w'.machines[n]? = v'.machines[n]?) ∧
  ∀ (t t' : Session) (i : Interaction) (r : Reply), t.interact i = .next (r, t') → t.machine.Faulted → t'.machine.Faulted

/-- Placing a word runs it: from any state, the step after `withFetchWord` is `exec` of the decoded word with `pc` at its address
plus 1. How a program is placed is the model's choice (log 16). -/
def Obligations.PlacedWordRunsNext : Prop :=
  ∀ (s : State) (w : Nat), w < 65536 → ∃ t : State,
    step (s.withFetchWord 16 w) = exec (decode s.params (BitVec.ofNat 16 w)) t ∧ t.pc = s.placeAddr + 1 ∧
      (∀ r, t.reg r = s.reg r) ∧ t.psr = s.psr ∧ t.cin = s.environmentMove.cin ∧ t.cout = s.cout ∧ t.fault = none
end

