-- ==== Sys2Proof/Laws/Decode.lean ====
section
/-! SUPPORT. The opcode map is a bijection whatever the parameters (30_encoding.md R100, D1), and fields of the word layout. -/

namespace Sys2Proof

theorem Opcode.mem_all (o : Opcode) : o ∈ Opcode.all := by cases o <;> decide

theorem Opcode.nodup_bits (P : Params) : (Opcode.all.map (Opcode.bits P)).Nodup := P.opcodes_distinct

theorem Opcode.bits_injective (P : Params) {o o' : Opcode} (h : o.bits P = o'.bits P) : o = o' :=
  List.inj_on_of_nodup_map (Opcode.nodup_bits P) o.mem_all o'.mem_all h

/-- Every number is some opcode's: sixteen distinct numbers below 16 are all of them. -/
theorem Opcode.exists_bits (P : Params) (b : BitVec 4) : ∃ o : Opcode, o.bits P = b := by
  by_contra hb
  have hnd : ((b :: Opcode.all.map (Opcode.bits P)).map BitVec.toNat).Nodup :=
    List.Nodup.map (fun _ _ => BitVec.eq_of_toNat_eq) <| List.nodup_cons.2
      ⟨fun h => by obtain ⟨o, -, ho⟩ := List.mem_map.1 h; exact hb ⟨o, ho⟩, Opcode.nodup_bits P⟩
  have hsub : (b :: Opcode.all.map (Opcode.bits P)).map BitVec.toNat ⊆ List.range 16 := by
    intro n hn
    obtain ⟨w, -, rfl⟩ := List.mem_map.1 hn
    exact List.mem_range.2 w.isLt
  have hlen := (List.subperm_of_subset hnd hsub).length_le
  simp [Opcode.all] at hlen

@[simp] theorem Opcode.bits_ofBits (P : Params) (b : BitVec 4) : (Opcode.ofBits P b).bits P = b := by
  obtain ⟨o, rfl⟩ := Opcode.exists_bits P b
  unfold Opcode.ofBits
  rcases h : Opcode.all.find? (fun o' => o'.bits P == o.bits P) with _ | o'
  · exact absurd (List.find?_eq_none.1 h o o.mem_all) (by simp)
  · have := List.find?_some h
    rw [h]
    exact eq_of_beq this

@[simp] theorem Opcode.ofBits_bits (P : Params) (o : Opcode) : Opcode.ofBits P (o.bits P) = o :=
  Opcode.bits_injective P (Opcode.bits_ofBits P _)

/-- The opcode map read backwards: the form of one opcode number. -/
theorem Opcode.ofBits_eq_iff (P : Params) (b : BitVec 4) (o : Opcode) : Opcode.ofBits P b = o ↔ b = o.bits P :=
  ⟨fun h => by rw [← h, Opcode.bits_ofBits], fun h => by rw [h, Opcode.ofBits_bits]⟩

@[simp] theorem toFin_regBits (r : Reg) : (regBits r).toFin = r := rfl

/-- The top four bits of an encoded instruction are its opcode's number (R90). -/
@[simp] theorem opcodeField_encode (P : Params) (i : Instr) : opcodeField (encode P i) = i.opcode.bits P := by
  apply BitVec.eq_of_getLsbD_eq
  intro k h
  simp only [opcodeField, encode, BitVec.getLsbD_append, BitVec.getLsbD_extractLsb']
  simp [h]

/-- The low twelve bits of an encoded instruction are its operands' bits (R90). -/
theorem getLsbD_encode (P : Params) (i : Instr) {k : Nat} (h : k < 12) :
    (encode P i).getLsbD k = i.operandBits.getLsbD k := by
  simp only [encode, BitVec.getLsbD_append, h, if_true]

end Sys2Proof
end

