-- ==== Sys2Proof/Laws/Flags.lean ====
section
/-! SUPPORT. What `setcc` does to `psr`: the low three bits become the flags of the value, the others stay. -/

namespace Sys2Proof.Machine

/-- A flag's mask has that flag's bit and no other. -/
theorem getLsbD_flagMask (p : Fin 3) (k : Nat) : (flagMask p).getLsbD k = decide (k = p.val) := by
  by_cases h : k < 3
  · have : ∀ (p : Fin 3) (k : Fin 3), (flagMask p).getLsbD k = decide (k.val = p.val) := by decide
    exact this p ⟨k, h⟩
  · rw [BitVec.getLsbD_of_ge _ _ (by omega), eq_comm, decide_eq_false]
    omega

theorem flagMask_injective {p q : Fin 3} (h : flagMask p = flagMask q) : p = q := by
  revert p q
  decide

/-- The three flags have three positions (R26). -/
theorem flag_positions_differ (P : Params) : P.psrN ≠ P.psrZ ∧ P.psrN ≠ Config.psrP ∧ P.psrZ ≠ Config.psrP := by
  simpa [and_assoc] using P.flags_distinct

theorem flagsOf_cases (P : Params) (v : Word) :
    (v[15] = true ∧ flagsOf P v = flagMask P.psrN) ∨ (v = 0 ∧ flagsOf P v = flagMask P.psrZ) ∨
      (v[15] = false ∧ v ≠ 0 ∧ flagsOf P v = flagMask Config.psrP) := by
  unfold flagsOf
  by_cases h : v[15] = true
  · exact .inl ⟨h, by simp [h]⟩
  · by_cases h0 : v = 0
    · exact .inr (.inl ⟨h0, by simp [h0]⟩)
    · exact .inr (.inr ⟨by simpa using h, h0, by rw [if_neg h, if_neg h0]⟩)

/-- Bit by bit: the flags below bit 3, the old status above. -/
theorem getLsbD_setccPsr (P : Params) (psr v : Word) (i : Nat) :
    (setccPsr P psr v).getLsbD i = if i < 3 then (flagsOf P v).getLsbD i else psr.getLsbD i := by
  have hmask : ∀ j : Fin 16, (0xFFF8 : Word).getLsbD j = decide (3 ≤ j.val) := by decide
  unfold setccPsr
  by_cases h16 : i < 16
  · have := hmask ⟨i, h16⟩
    simp only [BitVec.getLsbD_or, BitVec.getLsbD_and, BitVec.getLsbD_setWidth, this, h16, decide_true, Bool.true_and]
    by_cases h : i < 3
    · simp [h, show ¬ 3 ≤ i by omega]
    · rw [BitVec.getLsbD_of_ge (flagsOf P v) i (by omega)]
      simp [h, show 3 ≤ i by omega]
  · rw [BitVec.getLsbD_of_ge _ i (by omega), BitVec.getLsbD_of_ge psr i (by omega)]
    simp [show ¬ i < 3 by omega]

/-- A flag in the order of BR's mask (R94). -/
theorem getLsbD_nzpFlags (P : Params) (psr : Word) : (nzpFlags P psr).getLsbD 2 = psr.getLsbD P.psrN ∧
    (nzpFlags P psr).getLsbD 1 = psr.getLsbD P.psrZ ∧ (nzpFlags P psr).getLsbD 0 = psr.getLsbD Config.psrP := by
  have h : ∀ n z p : Bool, (BitVec.ofBool n ++ BitVec.ofBool z ++ BitVec.ofBool p).getLsbD 2 = n ∧
      (BitVec.ofBool n ++ BitVec.ofBool z ++ BitVec.ofBool p).getLsbD 1 = z ∧
      (BitVec.ofBool n ++ BitVec.ofBool z ++ BitVec.ofBool p).getLsbD 0 = p := by decide
  exact h _ _ _

/-- With the default positions the flags in BR's order are `psr[2:0]` (R30). -/
theorem nzpFlags_default (psr : Word) : nzpFlags Params.default psr = conditionFlags psr := by
  apply BitVec.eq_of_getLsbD_eq
  intro k h
  obtain ⟨h2, h1, h0⟩ := getLsbD_nzpFlags Params.default psr
  rcases k with _ | _ | _ | k
  · rw [h0]; simp [conditionFlags, Config.psrP]
  · rw [h1]; simp [conditionFlags, Params.default]
  · rw [h2]; simp [conditionFlags, Params.default]
  · omega

/-- The flags after `setcc(v)` are those of `v`. -/
@[simp] theorem conditionFlags_setccPsr (P : Params) (psr v : Word) : conditionFlags (setccPsr P psr v) = flagsOf P v := by
  apply BitVec.eq_of_getLsbD_eq
  intro i h
  simp [conditionFlags, getLsbD_setccPsr, h]

end Sys2Proof.Machine
end

