-- ==== Sys2Proof/Laws/Memory.lean ====
section
/-! SUPPORT. The laws of the memory array: a read after a write, other cells untouched, the canonical form kept, and
canonical memories that read alike are equal. -/

namespace Sys2Proof.Machine

variable {mcr : Word}

/-! ## One byte cell -/

theorem Memory.readByte_insertByte_other (m : Memory) {k k' : Nat} (b : Byte) (h : k' ≠ k) :
    Memory.readByte mcr (Memory.insertByte m k b) k' = Memory.readByte mcr m k' := by
  induction m with
  | nil => simp [Memory.insertByte, Memory.readByte, h]
  | cons c m ih =>
    obtain ⟨c, v⟩ := c
    simp only [Memory.insertByte]
    split <;> simp [Memory.readByte, h, ih]

theorem Memory.readByte_insertByte_same (m : Memory) (k : Nat) (b : Byte) (h : ∀ c ∈ m, c.1 ≠ k) :
    Memory.readByte mcr (Memory.insertByte m k b) k = b := by
  induction m with
  | nil => simp [Memory.insertByte, Memory.readByte]
  | cons c m ih =>
    obtain ⟨c, v⟩ := c
    have hc : k ≠ c := fun e => h (c, v) (by simp) e.symm
    simp only [Memory.insertByte]
    split
    · simp [Memory.readByte]
    · simp [Memory.readByte, hc, ih fun c' h' => h c' (List.mem_cons_of_mem _ h')]

theorem Memory.readByte_eq_unlisted (m : Memory) (k : Nat) (h : ∀ c ∈ m, c.1 ≠ k) :
    Memory.readByte mcr m k = Memory.unlisted mcr k := by
  induction m with
  | nil => rfl
  | cons c m ih =>
    obtain ⟨c, v⟩ := c
    have hc : k ≠ c := fun e => h (c, v) (by simp) e.symm
    simp [Memory.readByte, hc, ih fun c' h' => h c' (List.mem_cons_of_mem _ h')]

theorem Memory.mem_eraseByte (m : Memory) (k : Nat) (c : Host.Cell) :
    c ∈ Memory.eraseByte m k ↔ c ∈ m ∧ c.1 ≠ k := by
  simp [Memory.eraseByte]

theorem Memory.readByte_eraseByte_other (m : Memory) {k k' : Nat} (h : k' ≠ k) :
    Memory.readByte mcr (Memory.eraseByte m k) k' = Memory.readByte mcr m k' := by
  induction m with
  | nil => rfl
  | cons c m ih =>
    obtain ⟨c, v⟩ := c
    by_cases hc : c = k
    · have hk : k' ≠ c := by rw [hc]; exact h
      simpa [Memory.eraseByte, Memory.readByte, hc, h] using ih
    · have he : Memory.eraseByte ((c, v) :: m) k = (c, v) :: Memory.eraseByte m k := by
        simp [Memory.eraseByte, hc]
      simp only [he, Memory.readByte, ih]

/-- A byte cell reads as last written. -/
theorem Memory.readByte_writeByte_same (m : Memory) (k : Nat) (b : Byte) :
    Memory.readByte mcr (Memory.writeByte mcr m k b) k = b := by
  have h : ∀ c ∈ Memory.eraseByte m k, c.1 ≠ k := fun c hc => ((Memory.mem_eraseByte m k c).1 hc).2
  unfold Memory.writeByte
  split
  · rename_i hb
    rw [Memory.readByte_eq_unlisted _ _ h, hb]
  · exact Memory.readByte_insertByte_same _ _ _ h

/-- A write leaves every other byte cell alone. -/
theorem Memory.readByte_writeByte_other (m : Memory) {k k' : Nat} (b : Byte) (h : k' ≠ k) :
    Memory.readByte mcr (Memory.writeByte mcr m k b) k' = Memory.readByte mcr m k' := by
  unfold Memory.writeByte
  split
  · exact Memory.readByte_eraseByte_other m h
  · rw [Memory.readByte_insertByte_other _ _ h, Memory.readByte_eraseByte_other m h]

/-! ## One machine cell (20_memory.md R51) -/

theorem wordOfBytes_hiByte_loByte (w : Word) : wordOfBytes (hiByte w) (loByte w) = w := by
  apply BitVec.eq_of_getLsbD_eq
  intro i hi
  simp only [wordOfBytes, hiByte, loByte, BitVec.getLsbD_append, BitVec.getLsbD_extractLsb']
  by_cases h : i < 8
  · simp [h]
  · simp [h, show i - 8 < 8 by omega, show 8 + (i - 8) = i by omega]

theorem hiByte_wordOfBytes (hi lo : Byte) : hiByte (wordOfBytes hi lo) = hi := by
  apply BitVec.eq_of_getLsbD_eq
  intro i h
  simp only [wordOfBytes, hiByte, BitVec.getLsbD_append, BitVec.getLsbD_extractLsb']
  simp [h]

theorem loByte_wordOfBytes (hi lo : Byte) : loByte (wordOfBytes hi lo) = lo := by
  apply BitVec.eq_of_getLsbD_eq
  intro i h
  simp only [wordOfBytes, loByte, BitVec.getLsbD_append, BitVec.getLsbD_extractLsb']
  simp [h]

/-- A cell reads as last written (R51). -/
@[simp] theorem Memory.readCell_writeCell_same (m : Memory) (a v : Word) : (m.writeCell mcr a v).readCell mcr a = v := by
  unfold Memory.readCell Memory.writeCell
  rw [Memory.readByte_writeByte_other _ _ (by omega), Memory.readByte_writeByte_same,
    Memory.readByte_writeByte_same, wordOfBytes_hiByte_loByte]

/-- A raw write leaves every other cell alone (R51). -/
theorem Memory.readCell_writeCell_other (m : Memory) {a a' : Word} (v : Word) (h : a' ≠ a) :
    (m.writeCell mcr a v).readCell mcr a' = m.readCell mcr a' := by
  have hn : a'.toNat ≠ a.toNat := fun e => h (BitVec.eq_of_toNat_eq e)
  unfold Memory.readCell Memory.writeCell
  rw [Memory.readByte_writeByte_other _ _ (by omega), Memory.readByte_writeByte_other _ _ (by omega),
    Memory.readByte_writeByte_other _ _ (by omega), Memory.readByte_writeByte_other _ _ (by omega)]

theorem Memory.readCell_writeCell (m : Memory) (a a' v : Word) :
    (m.writeCell mcr a v).readCell mcr a' = if a' = a then v else m.readCell mcr a' := by
  split
  · rename_i h; rw [h, Memory.readCell_writeCell_same]
  · rename_i h; exact Memory.readCell_writeCell_other m v h

/-- With nothing listed a cell reads as reset leaves it (10_state.md R44). -/
theorem Memory.readCell_nil (a : Word) : Memory.readCell mcr [] a = resetCell mcr a.toNat := by
  simp only [Memory.readCell, Memory.readByte, Memory.unlisted]
  rw [if_pos (by omega), if_neg (by omega), show 2 * a.toNat / 2 = a.toNat by omega,
    show (2 * a.toNat + 1) / 2 = a.toNat by omega, wordOfBytes_hiByte_loByte]

/-! ## The canonical form -/

theorem Memory.wf_cons (k : Nat) (b : Byte) (m : Memory) :
    Memory.wf mcr ((k, b) :: m) = true ↔
      (∀ c ∈ m, k < c.1) ∧ k < 131072 ∧ b ≠ Memory.unlisted mcr k ∧ Memory.wf mcr m = true := by
  simp [Memory.wf, and_assoc]

theorem Memory.wf_nil : Memory.wf mcr [] = true := rfl

theorem Memory.wf_eraseByte {m : Memory} (h : m.wf mcr = true) (k : Nat) : (Memory.eraseByte m k).wf mcr = true := by
  induction m with
  | nil => rfl
  | cons c m ih =>
    obtain ⟨c, v⟩ := c
    obtain ⟨hlt, hb, hv, hm⟩ := (Memory.wf_cons c v m).1 h
    by_cases hc : c = k
    · simpa [Memory.eraseByte, hc] using ih hm
    · have he : Memory.eraseByte ((c, v) :: m) k = (c, v) :: Memory.eraseByte m k := by
        simp [Memory.eraseByte, hc]
      rw [he, Memory.wf_cons]
      exact ⟨fun c' h' => hlt c' ((Memory.mem_eraseByte m k c').1 h').1, hb, hv, ih hm⟩

theorem Memory.mem_insertByte {m : Memory} {k : Nat} {b : Byte} {c : Host.Cell}
    (h : c ∈ Memory.insertByte m k b) : c = (k, b) ∨ c ∈ m := by
  induction m with
  | nil => simpa [Memory.insertByte] using h
  | cons d m ih =>
    obtain ⟨d, v⟩ := d
    simp only [Memory.insertByte] at h
    split at h
    · simpa using h
    · rcases List.mem_cons.1 h with h | h
      · simp [h]
      · rcases ih h with h | h <;> simp [h]

theorem Memory.wf_insertByte {m : Memory} (h : m.wf mcr = true) {k : Nat} {b : Byte} (hk : k < 131072)
    (hb : b ≠ Memory.unlisted mcr k) (hm : ∀ c ∈ m, c.1 ≠ k) : (Memory.insertByte m k b).wf mcr = true := by
  induction m with
  | nil => simp [Memory.insertByte, Memory.wf, hk, hb]
  | cons c m ih =>
    obtain ⟨c, v⟩ := c
    obtain ⟨hlt, hc, hv, hw⟩ := (Memory.wf_cons c v m).1 h
    have hck : c ≠ k := hm (c, v) (by simp)
    simp only [Memory.insertByte]
    split
    · rename_i hkc
      rw [Memory.wf_cons]
      refine ⟨fun d hd => ?_, hk, hb, h⟩
      rcases List.mem_cons.1 hd with rfl | hd
      · exact hkc
      · exact hkc.trans (hlt d hd)
    · rw [Memory.wf_cons]
      refine ⟨fun d hd => ?_, hc, hv, ih hw fun d hd => hm d (List.mem_cons_of_mem _ hd)⟩
      rcases Memory.mem_insertByte hd with rfl | hd
      · show c < k
        omega
      · exact hlt d hd

theorem Memory.wf_writeByte {m : Memory} (h : m.wf mcr = true) {k : Nat} (b : Byte) (hk : k < 131072) :
    (Memory.writeByte mcr m k b).wf mcr = true := by
  unfold Memory.writeByte
  split
  · exact Memory.wf_eraseByte h k
  · rename_i hb
    exact Memory.wf_insertByte (Memory.wf_eraseByte h k) hk hb
      fun c hc => ((Memory.mem_eraseByte m k c).1 hc).2

/-- A raw write keeps the canonical form. -/
theorem Memory.wf_writeCell {m : Memory} (h : m.wf mcr = true) (a v : Word) : (m.writeCell mcr a v).wf mcr = true :=
  Memory.wf_writeByte (Memory.wf_writeByte h _ (by omega)) _ (by omega)

theorem Memory.readByte_of_lt {m : Memory} {k : Nat} (h : ∀ c ∈ m, k < c.1) :
    Memory.readByte mcr m k = Memory.unlisted mcr k :=
  Memory.readByte_eq_unlisted m k fun c hc e => by have := h c hc; omega

/-- Canonical memories that read alike in every byte cell are equal. -/
theorem Memory.ext_of_readByte {m m' : Memory} (h : m.wf mcr = true) (h' : m'.wf mcr = true)
    (hr : ∀ k, Memory.readByte mcr m k = Memory.readByte mcr m' k) : m = m' := by
  induction m generalizing m' with
  | nil =>
    cases m' with
    | nil => rfl
    | cons c m' =>
      obtain ⟨c, v⟩ := c
      obtain ⟨-, -, hv, -⟩ := (Memory.wf_cons c v m').1 h'
      have := hr c
      simp only [Memory.readByte, if_true] at this
      exact absurd this.symm hv
  | cons c m ih =>
    obtain ⟨c, v⟩ := c
    obtain ⟨hlt, -, hv, hm⟩ := (Memory.wf_cons c v m).1 h
    cases m' with
    | nil =>
      have := hr c
      simp only [Memory.readByte, if_true] at this
      exact absurd this hv
    | cons d m' =>
      obtain ⟨d, u⟩ := d
      obtain ⟨hlt', -, hu, hm'⟩ := (Memory.wf_cons d u m').1 h'
      have hcd : c = d := by
        rcases Nat.lt_trichotomy c d with hl | he | hl
        · have hc := hr c
          rw [Memory.readByte_of_lt (m := (d, u) :: m')] at hc
          · simp only [Memory.readByte, if_true] at hc
            exact absurd hc hv
          · intro e he
            rcases List.mem_cons.1 he with rfl | he
            · exact hl
            · exact hl.trans (hlt' e he)
        · exact he
        · have hd := hr d
          rw [Memory.readByte_of_lt (m := (c, v) :: m)] at hd
          · simp only [Memory.readByte, if_true] at hd
            exact absurd hd.symm hu
          · intro e he
            rcases List.mem_cons.1 he with rfl | he
            · exact hl
            · exact hl.trans (hlt e he)
      subst hcd
      have hvu : v = u := by simpa [Memory.readByte] using hr c
      have htail : m = m' := by
        refine ih hm hm' fun k => ?_
        by_cases hk : k = c
        · rw [hk, Memory.readByte_of_lt hlt, Memory.readByte_of_lt hlt']
        · simpa [Memory.readByte, hk] using hr k
      rw [hvu, htail]

end Sys2Proof.Machine
end

