-- ==== Sys2Proof/Laws/State.lean ====
section
/-! SUPPORT. One lemma for each field of State under each update, and the register file's read-after-write laws, so that no
proof unfolds a record update. -/

namespace Sys2Proof.Machine

variable (s : State)

/-! ## `State.setReg` -/

@[simp] theorem State.setReg_x (i : Reg) (v : Word) : (s.setReg i v).x = s.x.set i v := rfl
@[simp] theorem State.setReg_pc (i : Reg) (v : Word) : (s.setReg i v).pc = s.pc := rfl
@[simp] theorem State.setReg_psr (i : Reg) (v : Word) : (s.setReg i v).psr = s.psr := rfl
@[simp] theorem State.setReg_mem (i : Reg) (v : Word) : (s.setReg i v).mem = s.mem := rfl
@[simp] theorem State.setReg_cin (i : Reg) (v : Word) : (s.setReg i v).cin = s.cin := rfl
@[simp] theorem State.setReg_cout (i : Reg) (v : Word) : (s.setReg i v).cout = s.cout := rfl
@[simp] theorem State.setReg_fault (i : Reg) (v : Word) : (s.setReg i v).fault = s.fault := rfl
@[simp] theorem State.setReg_arrivals (i : Reg) (v : Word) : (s.setReg i v).arrivals = s.arrivals := rfl
@[simp] theorem State.setReg_params (i : Reg) (v : Word) : (s.setReg i v).params = s.params := rfl
@[simp] theorem State.setReg_rawRead (i : Reg) (v : Word) (a : Word) : (s.setReg i v).rawRead a = s.rawRead a := rfl
@[simp] theorem State.setReg_memWf (i : Reg) (v : Word) : (s.setReg i v).memWf = s.memWf := rfl

/-! ## `State.setPc` -/

@[simp] theorem State.setPc_x (t : Word) : (s.setPc t).x = s.x := rfl
@[simp] theorem State.setPc_pc (t : Word) : (s.setPc t).pc = t := rfl
@[simp] theorem State.setPc_psr (t : Word) : (s.setPc t).psr = s.psr := rfl
@[simp] theorem State.setPc_mem (t : Word) : (s.setPc t).mem = s.mem := rfl
@[simp] theorem State.setPc_cin (t : Word) : (s.setPc t).cin = s.cin := rfl
@[simp] theorem State.setPc_cout (t : Word) : (s.setPc t).cout = s.cout := rfl
@[simp] theorem State.setPc_fault (t : Word) : (s.setPc t).fault = s.fault := rfl
@[simp] theorem State.setPc_arrivals (t : Word) : (s.setPc t).arrivals = s.arrivals := rfl
@[simp] theorem State.setPc_params (t : Word) : (s.setPc t).params = s.params := rfl
@[simp] theorem State.setPc_rawRead (t : Word) (a : Word) : (s.setPc t).rawRead a = s.rawRead a := rfl
@[simp] theorem State.setPc_memWf (t : Word) : (s.setPc t).memWf = s.memWf := rfl

/-! ## `State.setcc` -/

@[simp] theorem State.setcc_x (v : Word) : (s.setcc v).x = s.x := rfl
@[simp] theorem State.setcc_pc (v : Word) : (s.setcc v).pc = s.pc := rfl
@[simp] theorem State.setcc_psr (v : Word) : (s.setcc v).psr = setccPsr s.params s.psr v := rfl
@[simp] theorem State.setcc_mem (v : Word) : (s.setcc v).mem = s.mem := rfl
@[simp] theorem State.setcc_cin (v : Word) : (s.setcc v).cin = s.cin := rfl
@[simp] theorem State.setcc_cout (v : Word) : (s.setcc v).cout = s.cout := rfl
@[simp] theorem State.setcc_fault (v : Word) : (s.setcc v).fault = s.fault := rfl
@[simp] theorem State.setcc_arrivals (v : Word) : (s.setcc v).arrivals = s.arrivals := rfl
@[simp] theorem State.setcc_params (v : Word) : (s.setcc v).params = s.params := rfl
@[simp] theorem State.setcc_rawRead (v : Word) (a : Word) : (s.setcc v).rawRead a = s.rawRead a := rfl
@[simp] theorem State.setcc_memWf (v : Word) : (s.setcc v).memWf = s.memWf := rfl

/-! ## `State.writeResult` -/

@[simp] theorem State.writeResult_x (dr : Reg) (v : Word) : (s.writeResult dr v).x = s.x.set dr v := rfl
@[simp] theorem State.writeResult_pc (dr : Reg) (v : Word) : (s.writeResult dr v).pc = s.pc := rfl
@[simp] theorem State.writeResult_psr (dr : Reg) (v : Word) : (s.writeResult dr v).psr = setccPsr s.params s.psr v := rfl
@[simp] theorem State.writeResult_mem (dr : Reg) (v : Word) : (s.writeResult dr v).mem = s.mem := rfl
@[simp] theorem State.writeResult_cin (dr : Reg) (v : Word) : (s.writeResult dr v).cin = s.cin := rfl
@[simp] theorem State.writeResult_cout (dr : Reg) (v : Word) : (s.writeResult dr v).cout = s.cout := rfl
@[simp] theorem State.writeResult_fault (dr : Reg) (v : Word) : (s.writeResult dr v).fault = s.fault := rfl
@[simp] theorem State.writeResult_arrivals (dr : Reg) (v : Word) : (s.writeResult dr v).arrivals = s.arrivals := rfl
@[simp] theorem State.writeResult_params (dr : Reg) (v : Word) : (s.writeResult dr v).params = s.params := rfl
@[simp] theorem State.writeResult_rawRead (dr : Reg) (v : Word) (a : Word) : (s.writeResult dr v).rawRead a = s.rawRead a := rfl
@[simp] theorem State.writeResult_memWf (dr : Reg) (v : Word) : (s.writeResult dr v).memWf = s.memWf := rfl

/-! ## `State.consoleInput` -/

@[simp] theorem State.consoleInput_x (b : Byte) : (s.consoleInput b).x = s.x := rfl
@[simp] theorem State.consoleInput_pc (b : Byte) : (s.consoleInput b).pc = s.pc := rfl
@[simp] theorem State.consoleInput_psr (b : Byte) : (s.consoleInput b).psr = s.psr := rfl
@[simp] theorem State.consoleInput_mem (b : Byte) : (s.consoleInput b).mem = s.mem := rfl
@[simp] theorem State.consoleInput_cin (b : Byte) : (s.consoleInput b).cin = s.cin ++ [b] := rfl
@[simp] theorem State.consoleInput_cout (b : Byte) : (s.consoleInput b).cout = s.cout := rfl
@[simp] theorem State.consoleInput_fault (b : Byte) : (s.consoleInput b).fault = s.fault := rfl
@[simp] theorem State.consoleInput_arrivals (b : Byte) : (s.consoleInput b).arrivals = s.arrivals := rfl
@[simp] theorem State.consoleInput_params (b : Byte) : (s.consoleInput b).params = s.params := rfl
@[simp] theorem State.consoleInput_rawRead (b : Byte) (a : Word) : (s.consoleInput b).rawRead a = s.rawRead a := rfl
@[simp] theorem State.consoleInput_memWf (b : Byte) : (s.consoleInput b).memWf = s.memWf := rfl

/-! ## `State.environmentMove` -/

@[simp] theorem State.environmentMove_x : (s.environmentMove).x = s.x := rfl
@[simp] theorem State.environmentMove_pc : (s.environmentMove).pc = s.pc := rfl
@[simp] theorem State.environmentMove_psr : (s.environmentMove).psr = s.psr := rfl
@[simp] theorem State.environmentMove_mem : (s.environmentMove).mem = s.mem := rfl
@[simp] theorem State.environmentMove_cin : (s.environmentMove).cin = s.cin ++ s.arriving := rfl
@[simp] theorem State.environmentMove_cout : (s.environmentMove).cout = s.cout := rfl
@[simp] theorem State.environmentMove_fault : (s.environmentMove).fault = s.fault := rfl
@[simp] theorem State.environmentMove_arrivals : (s.environmentMove).arrivals = s.arrivals.tail := rfl
@[simp] theorem State.environmentMove_params : (s.environmentMove).params = s.params := rfl
@[simp] theorem State.environmentMove_rawRead (a : Word) : (s.environmentMove).rawRead a = s.rawRead a := rfl
@[simp] theorem State.environmentMove_memWf : (s.environmentMove).memWf = s.memWf := rfl

/-! ## `State.raiseUnimplementedOpcode` -/

@[simp] theorem State.raiseUnimplementedOpcode_x : (s.raiseUnimplementedOpcode).x = s.x := rfl
@[simp] theorem State.raiseUnimplementedOpcode_pc : (s.raiseUnimplementedOpcode).pc = s.pc := rfl
@[simp] theorem State.raiseUnimplementedOpcode_psr : (s.raiseUnimplementedOpcode).psr = s.psr := rfl
@[simp] theorem State.raiseUnimplementedOpcode_mem : (s.raiseUnimplementedOpcode).mem = s.mem := rfl
@[simp] theorem State.raiseUnimplementedOpcode_cin : (s.raiseUnimplementedOpcode).cin = s.cin := rfl
@[simp] theorem State.raiseUnimplementedOpcode_cout : (s.raiseUnimplementedOpcode).cout = s.cout := rfl
@[simp] theorem State.raiseUnimplementedOpcode_fault : (s.raiseUnimplementedOpcode).fault = some .unimplementedOpcode := rfl
@[simp] theorem State.raiseUnimplementedOpcode_arrivals : (s.raiseUnimplementedOpcode).arrivals = s.arrivals := rfl
@[simp] theorem State.raiseUnimplementedOpcode_params : (s.raiseUnimplementedOpcode).params = s.params := rfl
@[simp] theorem State.raiseUnimplementedOpcode_rawRead (a : Word) : (s.raiseUnimplementedOpcode).rawRead a = s.rawRead a := rfl
@[simp] theorem State.raiseUnimplementedOpcode_memWf : (s.raiseUnimplementedOpcode).memWf = s.memWf := rfl

/-! ## `State.hold` -/

@[simp] theorem State.hold_x : (s.hold).x = s.x := rfl
@[simp] theorem State.hold_pc : (s.hold).pc = s.pc - 1 := rfl
@[simp] theorem State.hold_psr : (s.hold).psr = s.psr := rfl
@[simp] theorem State.hold_mem : (s.hold).mem = s.mem := rfl
@[simp] theorem State.hold_cin : (s.hold).cin = s.cin := rfl
@[simp] theorem State.hold_cout : (s.hold).cout = s.cout := rfl
@[simp] theorem State.hold_fault : (s.hold).fault = s.fault := rfl
@[simp] theorem State.hold_arrivals : (s.hold).arrivals = s.arrivals := rfl
@[simp] theorem State.hold_params : (s.hold).params = s.params := rfl
@[simp] theorem State.hold_rawRead (a : Word) : (s.hold).rawRead a = s.rawRead a := rfl
@[simp] theorem State.hold_memWf : (s.hold).memWf = s.memWf := rfl

/-! ## The register file (10_state.md R22) -/

/-- A register reads as last written. -/
@[simp] theorem State.reg_setReg_same (i : Reg) (v : Word) : (s.setReg i v).reg i = v := by
  simp [State.reg]

/-- A register write leaves every other register alone. -/
theorem State.reg_setReg_other {i j : Reg} (v : Word) (h : j ≠ i) : (s.setReg i v).reg j = s.reg j := by
  simp only [State.reg, State.setReg_x]
  exact Vector.getElem_set_ne _ _ fun e => h (Fin.ext e.symm)

theorem State.reg_setReg (i j : Reg) (v : Word) : (s.setReg i v).reg j = if j = i then v else s.reg j := by
  split
  · rename_i h; rw [h, State.reg_setReg_same]
  · rename_i h; exact State.reg_setReg_other s v h

/-- Two states with the same register file read alike. -/
theorem State.reg_eq_of_x_eq {s t : State} (h : t.x = s.x) (i : Reg) : t.reg i = s.reg i := by
  simp [State.reg, h]

@[simp] theorem State.reg_setPc (t : Word) (i : Reg) : (s.setPc t).reg i = s.reg i := rfl
@[simp] theorem State.reg_setcc (v : Word) (i : Reg) : (s.setcc v).reg i = s.reg i := rfl
@[simp] theorem State.reg_hold (i : Reg) : s.hold.reg i = s.reg i := rfl
@[simp] theorem State.reg_environmentMove (i : Reg) : s.environmentMove.reg i = s.reg i := rfl
@[simp] theorem State.reg_raiseUnimplementedOpcode (i : Reg) : s.raiseUnimplementedOpcode.reg i = s.reg i := rfl

@[simp] theorem State.reg_writeResult_same (dr : Reg) (v : Word) : (s.writeResult dr v).reg dr = v := by
  simp [State.writeResult]

theorem State.reg_writeResult_other {dr j : Reg} (v : Word) (h : j ≠ dr) :
    (s.writeResult dr v).reg j = s.reg j := by
  simpa [State.writeResult] using State.reg_setReg_other s v h

/-! ## Reset (10_state.md R44) -/

@[simp] theorem State.create_reg (P : Params) (i : Reg) : (State.create P).reg i = 0 := by
  simp [State.reg, State.create]
@[simp] theorem State.create_params (P : Params) : (State.create P).params = P := rfl

end Sys2Proof.Machine
end

