-- ==== Sys2Proof/Laws/Ops.lean ====
section
/-! SUPPORT. One lemma for each shared operation that says everything it can do: the arbiter's read and write, the fetch, trap
entry, and what they leave alone. -/

namespace Sys2Proof.Machine

/-! ## The addresses (00_scope.md R8) -/

/-- The five special addresses are pairwise distinct (R8, D3). -/
theorem special_addrs_differ (P : Params) :
    (P.kbsrAddr ≠ P.kbdrAddr ∧ P.kbsrAddr ≠ P.dsrAddr ∧ P.kbsrAddr ≠ P.ddrAddr ∧ P.kbsrAddr ≠ P.mcrAddr) ∧
      (P.kbdrAddr ≠ P.dsrAddr ∧ P.kbdrAddr ≠ P.ddrAddr ∧ P.kbdrAddr ≠ P.mcrAddr) ∧
      (P.dsrAddr ≠ P.ddrAddr ∧ P.dsrAddr ≠ P.mcrAddr) ∧ P.ddrAddr ≠ P.mcrAddr := by
  simpa using P.addrs_distinct

theorem isDeviceAddr_iff (P : Params) (a : Word) : isDeviceAddr P a = true ↔
    a = P.kbsrAddr ∨ a = P.kbdrAddr ∨ a = P.dsrAddr ∨ a = P.ddrAddr := by
  simp [isDeviceAddr, or_assoc]

theorem isDeviceAddr_eq_false_iff (P : Params) (a : Word) : isDeviceAddr P a = false ↔
    a ≠ P.kbsrAddr ∧ a ≠ P.kbdrAddr ∧ a ≠ P.dsrAddr ∧ a ≠ P.ddrAddr := by
  rw [Bool.eq_false_iff, Ne, isDeviceAddr_iff]
  tauto

/-- The MCR is a plain cell (10_state.md R33, C2). -/
@[simp] theorem isDeviceAddr_mcrAddr (P : Params) : isDeviceAddr P P.mcrAddr = false := by
  obtain ⟨⟨-, -, -, h1⟩, ⟨-, -, h2⟩, ⟨-, h3⟩, h4⟩ := special_addrs_differ P
  exact (isDeviceAddr_eq_false_iff P _).2 ⟨h1.symm, h2.symm, h3.symm, h4.symm⟩

/-! ## Raw access (20_memory.md R51) -/

/-- What a machine's array reads as depends on the array and the place of the MCR alone. -/
theorem State.rawRead_congr {s t : State} (hm : t.mem = s.mem) (hp : t.params = s.params) (a : Word) :
    t.rawRead a = s.rawRead a := by simp [State.rawRead, hm, hp]

theorem State.rawByte_congr {s t : State} (hm : t.mem = s.mem) (hp : t.params = s.params) (k : Nat) :
    t.rawByte k = s.rawByte k := by simp [State.rawByte, hm, hp]

theorem State.memWf_congr {s t : State} (hm : t.mem = s.mem) (hp : t.params = s.params) : t.memWf = s.memWf := by
  simp [State.memWf, hm, hp]

/-- A raw write puts the word in its cell and leaves every other cell alone. -/
theorem State.rawWrite_rawRead (s : State) (a v a' : Word) :
    (s.rawWrite a v).rawRead a' = if a' = a then v else s.rawRead a' :=
  Memory.readCell_writeCell _ _ _ _

@[simp] theorem State.rawWrite_rawRead_same (s : State) (a v : Word) : (s.rawWrite a v).rawRead a = v :=
  Memory.readCell_writeCell_same _ _ _

theorem State.rawWrite_rawRead_other (s : State) {a a' : Word} (v : Word) (h : a' ≠ a) :
    (s.rawWrite a v).rawRead a' = s.rawRead a' := Memory.readCell_writeCell_other _ _ h

/-- A raw write changes no byte cell but the two of its cell (log 1). -/
theorem State.rawWrite_rawByte_other (s : State) {a : Word} {k : Nat} (v : Word) (h : k ≠ 2 * a.toNat)
    (h' : k ≠ 2 * a.toNat + 1) : (s.rawWrite a v).rawByte k = s.rawByte k := by
  show ((s.mem.writeByte s.params.mcrAddr _ _).writeByte s.params.mcrAddr _ _).readByte s.params.mcrAddr k = _
  rw [Memory.readByte_writeByte_other _ _ h', Memory.readByte_writeByte_other _ _ h]
  rfl

/-- A raw write keeps the canonical form. -/
theorem State.rawWrite_memWf {s : State} (h : s.memWf = true) (a v : Word) : (s.rawWrite a v).memWf = true :=
  Memory.wf_writeCell h a v

@[simp] theorem State.rawWrite_x (s : State) (a v : Word) : (s.rawWrite a v).x = s.x := rfl
@[simp] theorem State.rawWrite_pc (s : State) (a v : Word) : (s.rawWrite a v).pc = s.pc := rfl
@[simp] theorem State.rawWrite_psr (s : State) (a v : Word) : (s.rawWrite a v).psr = s.psr := rfl
@[simp] theorem State.rawWrite_cin (s : State) (a v : Word) : (s.rawWrite a v).cin = s.cin := rfl
@[simp] theorem State.rawWrite_cout (s : State) (a v : Word) : (s.rawWrite a v).cout = s.cout := rfl
@[simp] theorem State.rawWrite_fault (s : State) (a v : Word) : (s.rawWrite a v).fault = s.fault := rfl
@[simp] theorem State.rawWrite_arrivals (s : State) (a v : Word) : (s.rawWrite a v).arrivals = s.arrivals := rfl
@[simp] theorem State.rawWrite_params (s : State) (a v : Word) : (s.rawWrite a v).params = s.params := rfl
@[simp] theorem State.rawWrite_reg (s : State) (a v : Word) (i : Reg) : (s.rawWrite a v).reg i = s.reg i := rfl

/-! ## `MemRead` (20_memory.md R54) -/

/-- Everything `MemRead` can do to the state: nothing, or take the first byte of `cin` at `KBDR_ADDR`. -/
theorem State.memRead_cases (s : State) (a : Word) :
    (s.memRead a).2 = s ∨
      (a = s.params.kbdrAddr ∧ ∃ b rest, s.cin = b :: rest ∧ (s.memRead a).1 = charWord b ∧
        (s.memRead a).2 = { s with cin := rest }) := by
  unfold State.memRead
  split
  · exact .inl rfl
  split
  · split
    · rename_i ha _ b rest hc
      exact .inr ⟨ha, b, rest, hc, rfl, rfl⟩
    · exact .inl rfl
  · split
    · exact .inl rfl
    split <;> exact .inl rfl

/-- Plain memory reads as the array, with no side effect (R54, R67). -/
theorem State.memRead_plain {s : State} {a : Word} (h : isDeviceAddr s.params a = false) :
    s.memRead a = (s.rawRead a, s) := by
  have h' : ¬ (a = s.params.kbsrAddr ∨ a = s.params.kbdrAddr ∨ a = s.params.dsrAddr ∨ a = s.params.ddrAddr) := by
    rw [← isDeviceAddr_iff, h]; decide
  simp only [not_or] at h'
  simp [State.memRead, h']

theorem State.memRead_frame (s : State) (a : Word) : (s.memRead a).2 = { s with cin := (s.memRead a).2.cin } := by
  rcases s.memRead_cases a with h | ⟨-, b, rest, -, -, h⟩ <;> rw [h]

@[simp] theorem State.memRead_x (s : State) (a : Word) : (s.memRead a).2.x = s.x := by rw [s.memRead_frame a]
@[simp] theorem State.memRead_pc (s : State) (a : Word) : (s.memRead a).2.pc = s.pc := by rw [s.memRead_frame a]
@[simp] theorem State.memRead_psr (s : State) (a : Word) : (s.memRead a).2.psr = s.psr := by rw [s.memRead_frame a]
@[simp] theorem State.memRead_mem (s : State) (a : Word) : (s.memRead a).2.mem = s.mem := by rw [s.memRead_frame a]
@[simp] theorem State.memRead_cout (s : State) (a : Word) : (s.memRead a).2.cout = s.cout := by rw [s.memRead_frame a]
@[simp] theorem State.memRead_fault (s : State) (a : Word) : (s.memRead a).2.fault = s.fault := by
  rw [s.memRead_frame a]
@[simp] theorem State.memRead_arrivals (s : State) (a : Word) : (s.memRead a).2.arrivals = s.arrivals := by
  rw [s.memRead_frame a]
@[simp] theorem State.memRead_params (s : State) (a : Word) : (s.memRead a).2.params = s.params := by
  rw [s.memRead_frame a]
@[simp] theorem State.memRead_rawRead (s : State) (a b : Word) : (s.memRead a).2.rawRead b = s.rawRead b :=
  State.rawRead_congr (s.memRead_mem a) (s.memRead_params a) b
@[simp] theorem State.memRead_memWf (s : State) (a : Word) : (s.memRead a).2.memWf = s.memWf :=
  State.memWf_congr (s.memRead_mem a) (s.memRead_params a)
@[simp] theorem State.memRead_reg (s : State) (a : Word) (i : Reg) : (s.memRead a).2.reg i = s.reg i :=
  State.reg_eq_of_x_eq (s.memRead_x a) i

/-- A read takes bytes from the front of `cin` only (R54, R77). -/
theorem State.memRead_cin_suffix (s : State) (a : Word) : (s.memRead a).2.cin <:+ s.cin := by
  rcases s.memRead_cases a with h | ⟨-, b, rest, hc, -, h⟩
  · rw [h]
  · rw [h, hc]; exact List.suffix_cons b rest

/-! ## `MemWrite` (20_memory.md R61) -/

/-- Everything `MemWrite` can do: nothing at a read-only device register, one byte out at `DDR_ADDR`, else a plain store. -/
theorem State.memWrite_cases (s : State) (a v : Word) :
    (isDeviceAddr s.params a = true ∧ a ≠ s.params.ddrAddr ∧ s.memWrite a v = s) ∨
      (a = s.params.ddrAddr ∧ s.memWrite a v = { s with cout := s.cout ++ [emittedByte v] }) ∨
      (isDeviceAddr s.params a = false ∧ s.memWrite a v = s.rawWrite a v) := by
  unfold State.memWrite
  split
  · rename_i h
    refine .inl ⟨?_, ?_, rfl⟩
    · rw [isDeviceAddr_iff]; tauto
    · obtain ⟨⟨-, -, h1, -⟩, ⟨-, h2, -⟩, ⟨h3, -⟩, -⟩ := special_addrs_differ s.params
      rcases h with rfl | rfl | rfl <;> assumption
  · split
    · rename_i h; exact .inr (.inl ⟨h, rfl⟩)
    · refine .inr (.inr ⟨?_, rfl⟩)
      rw [Bool.eq_false_iff, Ne, isDeviceAddr_iff]; tauto

theorem State.memWrite_plain {s : State} {a : Word} (v : Word) (h : isDeviceAddr s.params a = false) :
    s.memWrite a v = s.rawWrite a v := by
  rcases s.memWrite_cases a v with ⟨hd, -⟩ | ⟨rfl, -⟩ | ⟨-, hw⟩
  · rw [h] at hd; exact absurd hd (by decide)
  · exact absurd h (by simp [isDeviceAddr])
  · exact hw

theorem State.memWrite_frame (s : State) (a v : Word) :
    s.memWrite a v = { s with mem := (s.memWrite a v).mem, cout := (s.memWrite a v).cout } := by
  rcases s.memWrite_cases a v with ⟨-, -, h⟩ | ⟨-, h⟩ | ⟨-, h⟩ <;> rw [h]
  rfl

@[simp] theorem State.memWrite_x (s : State) (a v : Word) : (s.memWrite a v).x = s.x := by rw [s.memWrite_frame a v]
@[simp] theorem State.memWrite_pc (s : State) (a v : Word) : (s.memWrite a v).pc = s.pc := by
  rw [s.memWrite_frame a v]
@[simp] theorem State.memWrite_psr (s : State) (a v : Word) : (s.memWrite a v).psr = s.psr := by
  rw [s.memWrite_frame a v]
@[simp] theorem State.memWrite_cin (s : State) (a v : Word) : (s.memWrite a v).cin = s.cin := by
  rw [s.memWrite_frame a v]
@[simp] theorem State.memWrite_fault (s : State) (a v : Word) : (s.memWrite a v).fault = s.fault := by
  rw [s.memWrite_frame a v]
@[simp] theorem State.memWrite_arrivals (s : State) (a v : Word) : (s.memWrite a v).arrivals = s.arrivals := by
  rw [s.memWrite_frame a v]
@[simp] theorem State.memWrite_params (s : State) (a v : Word) : (s.memWrite a v).params = s.params := by
  rw [s.memWrite_frame a v]
@[simp] theorem State.memWrite_reg (s : State) (a v : Word) (i : Reg) : (s.memWrite a v).reg i = s.reg i :=
  State.reg_eq_of_x_eq (s.memWrite_x a v) i

/-- A write changes at most the cell it addresses, and no device cell (R61, 10_state.md R32). -/
theorem State.memWrite_rawRead (s : State) (a v a' : Word) :
    (s.memWrite a v).rawRead a' =
      if a' = a ∧ isDeviceAddr s.params a = false then v else s.rawRead a' := by
  rcases s.memWrite_cases a v with ⟨hd, -, h⟩ | ⟨rfl, h⟩ | ⟨hd, h⟩
  · simp [h, hd]
  · rw [h, if_neg (by simp [isDeviceAddr])]
    rfl
  · simp [h, hd, State.rawWrite_rawRead]

theorem State.memWrite_memWf {s : State} (h : s.memWf = true) (a v : Word) : (s.memWrite a v).memWf = true := by
  rcases s.memWrite_cases a v with ⟨-, -, e⟩ | ⟨-, e⟩ | ⟨-, e⟩ <;> rw [e]
  · exact h
  · exact h
  · exact State.rawWrite_memWf h a v

/-! ## Fetch, trap entry, hold -/

/-- A fetch is the read at `pc`, and `pc` moves on by one (40_instruction_cycle.md R122, R124). -/
theorem State.fetch_eq (s : State) : s.fetch = ((s.memRead s.pc).1, (s.memRead s.pc).2.setPc (s.pc + 1)) := rfl

theorem State.fetch_plain {s : State} (h : isDeviceAddr s.params s.pc = false) :
    s.fetch = (s.rawRead s.pc, s.setPc (s.pc + 1)) := by
  rw [s.fetch_eq, State.memRead_plain h]

@[simp] theorem State.fetch_x (s : State) : s.fetch.2.x = s.x := by simp [s.fetch_eq]
@[simp] theorem State.fetch_pc (s : State) : s.fetch.2.pc = s.pc + 1 := by simp [s.fetch_eq]
@[simp] theorem State.fetch_psr (s : State) : s.fetch.2.psr = s.psr := by simp [s.fetch_eq]
@[simp] theorem State.fetch_mem (s : State) : s.fetch.2.mem = s.mem := by simp [s.fetch_eq]
@[simp] theorem State.fetch_cout (s : State) : s.fetch.2.cout = s.cout := by simp [s.fetch_eq]
@[simp] theorem State.fetch_fault (s : State) : s.fetch.2.fault = s.fault := by simp [s.fetch_eq]
@[simp] theorem State.fetch_arrivals (s : State) : s.fetch.2.arrivals = s.arrivals := by simp [s.fetch_eq]
@[simp] theorem State.fetch_params (s : State) : s.fetch.2.params = s.params := by simp [s.fetch_eq]
@[simp] theorem State.fetch_rawRead (s : State) (a : Word) : s.fetch.2.rawRead a = s.rawRead a :=
  State.rawRead_congr s.fetch_mem s.fetch_params a
@[simp] theorem State.fetch_memWf (s : State) : s.fetch.2.memWf = s.memWf :=
  State.memWf_congr s.fetch_mem s.fetch_params
@[simp] theorem State.fetch_reg (s : State) (i : Reg) : s.fetch.2.reg i = s.reg i :=
  State.reg_eq_of_x_eq s.fetch_x i

theorem State.fetch_cin_suffix (s : State) : s.fetch.2.cin <:+ s.cin := by
  simpa [s.fetch_eq] using s.memRead_cin_suffix s.pc

/-- Trap entry: R7 takes `pc`, `pc` takes the word that the read of the table entry returns (60_exceptions.md R196). -/
theorem State.enterTrap_eq (s : State) (a : Word) :
    s.enterTrap a = ((s.memRead a).2.setReg linkReg s.pc).setPc (s.memRead a).1 := by
  simp [State.enterTrap]

/-- Trap entry through a plain table entry: R7 takes `pc`, `pc` takes the entry (60_exceptions.md R196). -/
theorem State.enterTrap_plain {s : State} {a : Word} (h : isDeviceAddr s.params a = false) :
    s.enterTrap a = (s.setReg linkReg s.pc).setPc (s.rawRead a) := by
  simp [State.enterTrap, State.memRead_plain h]

/-- The hold undoes the fetch's increment. -/
theorem State.hold_setPc_add_one (s : State) : (s.setPc (s.pc + 1)).hold = s := by
  simp [State.hold, State.setPc]

/-- The environment's moves do not touch the run/halt test. -/
@[simp] theorem State.runBit_environmentMove (s : State) : s.environmentMove.runBit = s.runBit := rfl

end Sys2Proof.Machine
end

