-- ==== Sys2Proof/Laws/PerInstr.lean ====
section
/-! SUPPORT. Statements made for each instruction as syntax. The family `OpcodeField`: the four top bits of an instruction's
word are the number that 30_encoding.md R100 lists for it, whatever its operands and whatever the parameters. -/

namespace Sys2Proof.Laws.OpcodeField

/-- The number that the opcode map lists beside the form (R100, R102). -/
def tableNumber (P : Params) : Instr → BitVec 4
  | .br .. => P.opBr
  | .addReg .. | .addImm .. => 0x1
  | .ld .. => P.opLd
  | .st .. => P.opSt
  | .jsr .. | .jsrr .. => P.opJsr
  | .andReg .. | .andImm .. => 0x5
  | .ldr .. => P.opLdr
  | .str .. => P.opStr
  | .rti => 0x8
  | .notReg .. => P.opNot
  | .ldi .. => P.opLdi
  | .sti .. => P.opSti
  | .jmp .. => P.opJmp
  | .reserved => 0xD
  | .lea .. => P.opLea
  | .trapGetc | .trap .. => P.opTrap

/-- The word's value divided by 4096 is the opcode number. -/
def Statement (i : Instr) : Prop := ∀ P : Params, (encode P i).toNat / 4096 = (tableNumber P i).toNat

theorem of_opcode (i : Instr) (h : ∀ P, i.opcode.bits P = tableNumber P i) : Statement i := by
  intro P
  have hf := congrArg BitVec.toNat (opcodeField_encode P i)
  have hlt := (encode P i).isLt
  simp only [opcodeField, BitVec.extractLsb'_toNat, Nat.shiftRight_eq_div_pow] at hf
  rw [h] at hf
  omega

theorem addReg (dr sr1 sr2 : Reg) : Statement (.addReg dr sr1 sr2) := of_opcode _ fun _ => rfl
theorem addImm (dr sr1 : Reg) (imm5 : BitVec 5) : Statement (.addImm dr sr1 imm5) := of_opcode _ fun _ => rfl
theorem andReg (dr sr1 sr2 : Reg) : Statement (.andReg dr sr1 sr2) := of_opcode _ fun _ => rfl
theorem andImm (dr sr1 : Reg) (imm5 : BitVec 5) : Statement (.andImm dr sr1 imm5) := of_opcode _ fun _ => rfl
theorem br (nzp : BitVec 3) (offset9 : BitVec 9) : Statement (.br nzp offset9) := of_opcode _ fun _ => rfl
theorem jmp (baseR : Reg) : Statement (.jmp baseR) := of_opcode _ fun _ => rfl
theorem jsr (offset11 : BitVec 11) : Statement (.jsr offset11) := of_opcode _ fun _ => rfl
theorem jsrr (baseR : Reg) : Statement (.jsrr baseR) := of_opcode _ fun _ => rfl
theorem ld (dr : Reg) (offset9 : BitVec 9) : Statement (.ld dr offset9) := of_opcode _ fun _ => rfl
theorem ldi (dr : Reg) (offset9 : BitVec 9) : Statement (.ldi dr offset9) := of_opcode _ fun _ => rfl
theorem ldr (dr baseR : Reg) (offset6 : BitVec 6) : Statement (.ldr dr baseR offset6) := of_opcode _ fun _ => rfl
theorem lea (dr : Reg) (offset9 : BitVec 9) : Statement (.lea dr offset9) := of_opcode _ fun _ => rfl
theorem notReg (dr sr1 : Reg) : Statement (.notReg dr sr1) := of_opcode _ fun _ => rfl
theorem rti : Statement .rti := of_opcode _ fun _ => rfl
theorem st (sr : Reg) (offset9 : BitVec 9) : Statement (.st sr offset9) := of_opcode _ fun _ => rfl
theorem sti (sr : Reg) (offset9 : BitVec 9) : Statement (.sti sr offset9) := of_opcode _ fun _ => rfl
theorem str (sr baseR : Reg) (offset6 : BitVec 6) : Statement (.str sr baseR offset6) := of_opcode _ fun _ => rfl
theorem trapGetc : Statement .trapGetc := of_opcode _ fun _ => rfl
theorem trap (trapvect8 : BitVec 8) : Statement (.trap trapvect8) := of_opcode _ fun _ => rfl
theorem reserved : Statement .reserved := of_opcode _ fun _ => rfl

end Sys2Proof.Laws.OpcodeField
end

