-- ==== Sys2Proof/Laws/Step.lean ====
section
/-! SUPPORT. What one step can do: the inversion of `step`, and the laws of the loader's copy. -/

namespace Sys2Proof.Machine

theorem step_eq (s : State) : step s = coreStep s.environmentMove := rfl

theorem coreStep_faulted {s : State} (h : s.Faulted) : coreStep s = .fault .unimplementedOpcode := by
  simp [coreStep, h]

theorem coreStep_final {s : State} (h : s.Final) : coreStep s = .fault .halted := by
  simp [coreStep, h.1, h.2]

theorem coreStep_running {s : State} (h : s.Running) : coreStep s = exec s.nextInstr s.fetch.2 := by
  simp [coreStep, h.1, h.2, State.nextInstr]

/-- The fault latch holds nothing or the one exception, so every state is faulted, final or running (R131). -/
theorem State.faulted_or_final_or_running (s : State) : s.Faulted ∨ s.Final ∨ s.Running := by
  rcases hf : s.fault with _ | ⟨⟨⟩⟩
  · cases hr : s.runBit
    · exact .inr (.inl ⟨hf, hr⟩)
    · exact .inr (.inr ⟨hf, hr⟩)
  · exact .inl hf

/-- If the core answers a next state, it was running and executed the instruction it fetched. -/
theorem coreStep_next {s t : State} (h : coreStep s = .next t) :
    s.Running ∧ exec s.nextInstr s.fetch.2 = .next t := by
  rcases s.faulted_or_final_or_running with hs | hs | hs
  · rw [coreStep_faulted hs] at h; cases h
  · rw [coreStep_final hs] at h; cases h
  · exact ⟨hs, by rw [← coreStep_running hs, h]⟩

/-- Everything a step that answers a next state has done: the environment's moves, the fetch, one instruction. -/
theorem step_next {s t : State} (h : step s = .next t) :
    s.Running ∧ exec s.environmentMove.nextInstr s.environmentMove.fetch.2 = .next t :=
  coreStep_next h

/-! ## TRAP 0x20 by what input waits (44_trap_system.md R182) -/

/-- With input waiting, its first byte goes to R0. -/
theorem execTrapGetc_cons {s : State} {b : Byte} {rest : List Byte} (h : s.cin = b :: rest) :
    execTrapGetc s = .next ({ s with cin := rest }.setReg charReg (charWord b)) := by
  unfold execTrapGetc
  split
  · rename_i h'
    rw [h] at h'
    cases h'
    rfl
  · rename_i h'
    rw [h] at h'
    cases h'

/-- With none waiting, the core holds (40_instruction_cycle.md R129). -/
theorem execTrapGetc_nil {s : State} (h : s.cin = []) : execTrapGetc s = .next s.hold := by
  unfold execTrapGetc
  split
  · rename_i h'
    rw [h] at h'
    cases h'
  · cases s.params.getcEof
    rfl

/-! ## The loader's copy (70_reset_and_hazards.md R218) -/

theorem State.rawWrites_memWf {s : State} (h : s.memWf = true) (a : Word) (ws : List Word) :
    (s.rawWrites a ws).memWf = true := by
  induction ws generalizing s a with
  | nil => exact h
  | cons w ws ih => exact ih (State.rawWrite_memWf h a w) (a + 1)

/-- A copy changes nothing but the array. -/
theorem State.rawWrites_frame (s : State) (a : Word) (ws : List Word) :
    s.rawWrites a ws = { s with mem := (s.rawWrites a ws).mem } := by
  induction ws generalizing s a with
  | nil => rfl
  | cons w ws ih => exact ih (s.rawWrite a w) (a + 1)

/-- A copy that does not wrap leaves the cells below its start alone. -/
theorem State.rawRead_rawWrites_below (s : State) (a : Word) (ws : List Word) (h : a.toNat + ws.length ≤ 65536)
    {b : Word} (hb : b.toNat < a.toNat) : (s.rawWrites a ws).rawRead b = s.rawRead b := by
  induction ws generalizing s a with
  | nil => rfl
  | cons w ws ih =>
    simp only [List.length_cons] at h
    rcases Nat.eq_zero_or_pos ws.length with h0 | h0
    · rw [List.length_eq_zero_iff.1 h0]
      exact s.rawWrite_rawRead_other w fun e => by rw [e] at hb; omega
    · have ha : (a + 1).toNat = a.toNat + 1 := by simp [BitVec.toNat_add]; omega
      rw [State.rawWrites, ih _ _ (by omega) (by omega)]
      exact s.rawWrite_rawRead_other w fun e => by rw [e] at hb; omega

/-! ## Placing a word (log 16) -/

/-- Setting the run bit changes nothing but the array. -/
theorem State.withRunBit_frame (s : State) : s.withRunBit = { s with mem := s.withRunBit.mem } := by
  unfold State.withRunBit
  split <;> rfl

@[simp] theorem State.withRunBit_params (s : State) : s.withRunBit.params = s.params := by rw [withRunBit_frame]
@[simp] theorem State.withRunBit_x (s : State) : s.withRunBit.x = s.x := by rw [withRunBit_frame]
@[simp] theorem State.withRunBit_psr (s : State) : s.withRunBit.psr = s.psr := by rw [withRunBit_frame]
@[simp] theorem State.withRunBit_cin (s : State) : s.withRunBit.cin = s.cin := by rw [withRunBit_frame]
@[simp] theorem State.withRunBit_cout (s : State) : s.withRunBit.cout = s.cout := by rw [withRunBit_frame]
@[simp] theorem State.withRunBit_arrivals (s : State) : s.withRunBit.arrivals = s.arrivals := by rw [withRunBit_frame]

@[simp] theorem State.withRunBit_runBit (s : State) : s.withRunBit.runBit = true := by
  unfold State.withRunBit
  split
  · assumption
  · simp [State.runBit, Config.mcrReset]

end Sys2Proof.Machine
end

