-- ==== Sys2Proof/Machine/Assembly.lean ====
section
/-! DEFINITION. The spec's assembly notation (30_encoding.md R109, R110): how an instruction is written, which offset a label
stands for, and the eight aliases. Notation only: no meaning and no step uses it (D18; log 22). -/

namespace Sys2Proof.Machine

/-- The address that a PC-relative field of the instruction at `address` names (R109, R150). -/
def labelAddress {n : Nat} (address : Word) (offset : BitVec n) : Word := aluAdd (address + 1) (sext offset)

/-- The field that a label stands for in the instruction at `address`: the label's address less the address of the instruction
plus 1 (R109); none where the distance does not fit the field. -/
def labelOffset (n : Nat) (address label : Word) : Option (BitVec n) :=
  let offset : BitVec n := (label - (address + 1)).setWidth n
  if labelAddress address offset = label then some offset else none

/-- The conventional aliases, none with a meaning of its own (R110). -/
inductive Alias where
  | ret | nop | getc | out | puts | inp | putsp | halt
  deriving DecidableEq, Repr

/-- The one instruction that an alias stands for (R110). -/
def Alias.expansion : Alias → Instr
  | .ret => .jmp 7
  | .nop => .br 0b000 0
  | .getc => .trapGetc
  | .out => .trap 0x21
  | .puts => .trap 0x22
  | .inp => .trap 0x23
  | .putsp => .trap 0x24
  | .halt => .trap 0x25

/-- A register as text: `R` and its number (R109). -/
def regText (r : Reg) : String := "R" ++ toString r.val

/-- A number as text in the hexadecimal form `xNN` (R109). -/
def hexText {n : Nat} (v : BitVec n) : String := "x" ++ v.toHex

/-- An immediate as text: `#` and its signed decimal value (R109). -/
def immText {n : Nat} (v : BitVec n) : String := "#" ++ toString v.toInt

/-- The letters of a BR: which of bits 11, 10 and 9 are set (R109). -/
def nzpText (nzp : BitVec 3) : String :=
  (if nzp[2] then "n" else "") ++ (if nzp[1] then "z" else "") ++ (if nzp[0] then "p" else "")

/-- A mnemonic before its operands, which commas separate (R109). -/
def asmLine (mnemonic : String) (operands : List String) : String := mnemonic ++ " " ++ String.intercalate "," operands

/-- How the instruction at `address` is written (R109). A label stands as the address it names. BR with no letter set is the
alias NOP where its offset is 0; that form with another offset, and RESERVED, have no notation and stand as words of data. -/
def assemblyText (P : Params) (i : Instr) (address : Word) : String :=
  match i with
  | .addReg dr sr1 sr2 => asmLine "ADD" [regText dr, regText sr1, regText sr2]
  | .addImm dr sr1 imm5 => asmLine "ADD" [regText dr, regText sr1, immText imm5]
  | .andReg dr sr1 sr2 => asmLine "AND" [regText dr, regText sr1, regText sr2]
  | .andImm dr sr1 imm5 => asmLine "AND" [regText dr, regText sr1, immText imm5]
  | .notReg dr sr1 => asmLine "NOT" [regText dr, regText sr1]
  | .br nzp offset9 =>
    if nzp = 0 then if offset9 = 0 then "NOP" else asmLine ".FILL" [hexText (encode P i)]
    else asmLine ("BR" ++ nzpText nzp) [hexText (labelAddress address offset9)]
  | .jmp baseR => asmLine "JMP" [regText baseR]
  | .jsr offset11 => asmLine "JSR" [hexText (labelAddress address offset11)]
  | .jsrr baseR => asmLine "JSRR" [regText baseR]
  | .ld dr offset9 => asmLine "LD" [regText dr, hexText (labelAddress address offset9)]
  | .ldi dr offset9 => asmLine "LDI" [regText dr, hexText (labelAddress address offset9)]
  | .lea dr offset9 => asmLine "LEA" [regText dr, hexText (labelAddress address offset9)]
  | .st sr offset9 => asmLine "ST" [regText sr, hexText (labelAddress address offset9)]
  | .sti sr offset9 => asmLine "STI" [regText sr, hexText (labelAddress address offset9)]
  | .ldr dr baseR offset6 => asmLine "LDR" [regText dr, regText baseR, immText offset6]
  | .str sr baseR offset6 => asmLine "STR" [regText sr, regText baseR, immText offset6]
  | .trapGetc => asmLine "TRAP" [hexText Config.getcVector]
  | .trap trapvect8 => asmLine "TRAP" [hexText trapvect8]
  | .rti => "RTI"
  | .reserved => asmLine ".FILL" [hexText (encode P i)]

/-- The bytes of a source text between `.ORIG` and `.END`: the origin's two, then two for each word (R109, R217). -/
def imageBytes (origin : Word) (words : List Word) : List Byte :=
  [hiByte origin, loByte origin] ++ words.flatMap fun w => [hiByte w, loByte w]

end Sys2Proof.Machine
end

