-- ==== Sys2Proof/Tests/Slice0.lean ====
section
/-! SUPPORT. Tests. Words and expected results come from spec/: the encodings of 30_encoding.md and the vectors of
95_test_vectors.md (A, L, S, B, T, F, LD, V series), named in each docstring. After them, for each statement with hypotheses, a
witness that meets them. -/

namespace Sys2Proof.Tests

open Sys2Proof.Machine

/-! ## Helpers -/

/-- The reset state with registers, cells and waiting input set, and `pc` moved. -/
def start (pc : Word) (regs : List (Reg × Word)) (cells : List (Word × Word)) (cin : List Byte := []) : State :=
  let s : State := { cells.foldl (fun s c => s.rawWrite c.1 c.2) State.reset with pc := pc, cin := cin }
  regs.foldl (fun s r => s.setReg r.1 r.2) s

/-- The state after one step, if there is one. -/
def after (s : State) : Option State :=
  match step s with
  | .next t => some t
  | _ => none

theorem exists_next_of_after {s : State} (h : (after s).isSome = true) : ∃ t, step s = .next t := by
  unfold after at h
  split at h
  · exact ⟨_, ‹_›⟩
  · cases h

/-- One register, `psr` and `pc` after one step. -/
def sees (s : State) (r : Reg) : Option (Word × Word × Word) := (after s).map fun t => (t.reg r, t.psr, t.pc)

/-- One cell, `psr` and `pc` after one step. -/
def seesCell (s : State) (a : Word) : Option (Word × Word × Word) :=
  (after s).map fun t => (t.rawRead a, t.psr, t.pc)

/-! ## WellFormed: the one check refuses an ill-formed term -/

/-- Vector 0x20 under the vectored form stands for no word (R180). -/
theorem test_trap_20_is_ill_formed : (Instr.trap 0x20).wf = false := by decide
/-- Its neighbours are ordinary vectors (T5). -/
theorem test_trap_21_is_well_formed : (Instr.trap 0x21).wf = true ∧ (Instr.trap 0x1F).wf = true := by decide

/-! ## Decoding: one word for each constructor, written out from the formats R91 to R99 -/

theorem test_decode_addReg : decode Params.default 0b0001_010_000_0_00_001 = .addReg 2 0 1 := by decide
theorem test_decode_addReg_ignored : decode Params.default 0b0001_010_000_0_11_001 = .addReg 2 0 1 := by decide
theorem test_decode_addImm : decode Params.default 0b0001_011_010_1_01111 = .addImm 3 2 15 := by decide
theorem test_decode_andReg : decode Params.default 0b0101_011_001_0_00_010 = .andReg 3 1 2 := by decide
theorem test_decode_andImm : decode Params.default 0b0101_000_000_1_10000 = .andImm 0 0 (-16) := by decide
theorem test_decode_br : decode Params.default 0b0000_101_111111110 = .br 0b101 (-2) := by decide
theorem test_decode_jmp : decode Params.default 0b1100_000_010_000000 = .jmp 2 := by decide
theorem test_decode_jmp_ignored : decode Params.default 0b1100_111_010_111111 = .jmp 2 := by decide
theorem test_decode_jsr : decode Params.default 0b0100_1_10000000000 = .jsr (-1024) := by decide
theorem test_decode_jsrr : decode Params.default 0b0100_0_00_011_000000 = .jsrr 3 := by decide
theorem test_decode_ld : decode Params.default 0b0010_001_000000010 = .ld 1 2 := by decide
theorem test_decode_ldi : decode Params.default 0b1010_010_000000001 = .ldi 2 1 := by decide
theorem test_decode_ldr : decode Params.default 0b0110_011_100_111110 = .ldr 3 4 (-2) := by decide
theorem test_decode_lea : decode Params.default 0b1110_101_011111111 = .lea 5 255 := by decide
theorem test_decode_not : decode Params.default 0b1001_001_000_111111 = .notReg 1 0 := by decide
theorem test_decode_not_ignored : decode Params.default 0b1001_001_000_000000 = .notReg 1 0 := by decide
theorem test_decode_rti : decode Params.default 0b1000_101010111100 = .rti := by decide
theorem test_decode_st : decode Params.default 0b0011_001_000000011 = .st 1 3 := by decide
theorem test_decode_sti : decode Params.default 0b1011_000_000000001 = .sti 0 1 := by decide
theorem test_decode_str : decode Params.default 0b0111_101_110_011111 = .str 5 6 31 := by decide
theorem test_decode_trapGetc : decode Params.default 0b1111_0000_00100000 = .trapGetc := by decide
theorem test_decode_trapGetc_ignored : decode Params.default 0b1111_1111_00100000 = .trapGetc := by decide
theorem test_decode_trap : decode Params.default 0b1111_0000_00100101 = .trap 0x25 := by decide
theorem test_decode_reserved : decode Params.default 0b1101_111111111111 = .reserved := by decide
/-- The source's own word `AND R0,R0,#0` (R111). -/
theorem test_decode_source_word : decode Params.default 0x5020 = .andImm 0 0 0 := by decide
/-- The words that R103's convention gives (A17, B7, B14, B15, T6). -/
theorem test_encode_conventional : encode Params.default (.notReg 1 0) = 0x923F ∧ encode Params.default (.jmp 2) = 0xC080 ∧
    encode Params.default (.jsrr 7) = 0x41C0 ∧ encode Params.default .trapGetc = 0xF020 ∧ encode Params.default .rti = 0x8000 ∧ encode Params.default .reserved = 0xD000 := by decide
theorem test_decode_bytes : decodeBytes Params.default [0x10, 0x25, 0xF0] = .ok (.addImm 0 0 5, [0xF0]) := by rfl
theorem test_decode_bytes_short : decodeBytes Params.default [0x10] = .error .truncated := by rfl
theorem test_decodeTableWord : decodeTableWord 16 0xF025 = some (.trap 0x25) ∧ decodeTableWord 32 0 = none := by decide

/-! ## Single steps (95_test_vectors.md part 2) -/

/-- A1: the sum wraps into bit 15, N. -/
theorem test_add_overflow : sees (start 0x3000 [(0, 0x7FFF), (1, 1)] [(0x3000, 0x1401)]) 2 =
    some (0x8000, 4, 0x3001) := by decide
/-- A4: destination equal to both sources. -/
theorem test_add_in_place : sees (start 0x3000 [(1, 0x8000)] [(0x3000, 0x1241)]) 1 = some (0, 2, 0x3001) := by decide
/-- A6, V1a: the source's scenario. -/
theorem test_addImm : sees (start 0x3000 [] [(0x3000, 0x1025)]) 0 = some (5, 1, 0x3001) := by decide
/-- A8: the most negative immediate. -/
theorem test_addImm_negative : sees (start 0x3000 [(0, 0x0010)] [(0x3000, 0x1030)]) 0 = some (0, 2, 0x3001) := by decide
/-- A11. -/
theorem test_andReg : sees (start 0x3000 [(1, 0xF0F0), (2, 0xFF00)] [(0x3000, 0x5642)]) 3 =
    some (0xF000, 4, 0x3001) := by decide
/-- A15: the immediate is sign-extended before the AND. -/
theorem test_andImm : sees (start 0x3000 [(0, 0xBEEF)] [(0x3000, 0x5030)]) 0 = some (0xBEE0, 4, 0x3001) := by decide
/-- A20. -/
theorem test_not : sees (start 0x3000 [(0, 0x8000)] [(0x3000, 0x923F)]) 1 = some (0x7FFF, 1, 0x3001) := by decide
/-- L1. -/
theorem test_ld : sees (start 0x3000 [] [(0x3000, 0x2202), (0x3003, 0xABCD)]) 1 = some (0xABCD, 4, 0x3001) := by decide
/-- L3: `pc` and address wrap. -/
theorem test_ld_wraps : sees (start 0xFFFF [] [(0xFFFF, 0x2000), (0, 0x42)]) 0 = some (0x42, 1, 0) := by decide
/-- L6. -/
theorem test_ldi : sees (start 0x3000 [] [(0x3000, 0xA401), (0x3002, 0x4000), (0x4000, 7)]) 2 =
    some (7, 1, 0x3001) := by decide
/-- L7: through the keyboard data register, consuming the byte. -/
theorem test_ldi_kbdr :
    (after (start 0x3000 [] [(0x3000, 0xA401), (0x3002, 0xFE02)] [0x7A])).map (fun t => (t.reg 2, t.cin)) =
      some (0x7A, []) := by decide
/-- L10: the base is the destination. -/
theorem test_ldr_in_place : sees (start 0x3000 [(1, 0x4000)] [(0x3000, 0x6240), (0x4000, 0x8001)]) 1 =
    some (0x8001, 4, 0x3001) := by decide
/-- L19: a character is zero-extended. -/
theorem test_ldr_kbdr : sees (start 0x3000 [(1, 0xFE02)] [(0x3000, 0x6040)] [0xFF]) 0 = some (0xFF, 1, 0x3001) := by decide
/-- L24: LEA sets the flags. -/
theorem test_lea : sees (start 0x7FFF [] [(0x7FFF, 0xE000)]) 0 = some (0x8000, 4, 0x8000) := by decide
/-- S1. -/
theorem test_st : seesCell (start 0x3000 [(1, 0x1234)] [(0x3000, 0x3203)]) 0x3004 = some (0x1234, 2, 0x3001) := by decide
/-- S4: DDR emits the low byte and stores nothing. -/
theorem test_sti_ddr :
    (after (start 0x3000 [(0, 0x1242)] [(0x3000, 0xB001), (0x3002, 0xFE06)])).map
      (fun t => (t.cout, t.rawRead 0xFE06)) = some ([0x42], 0) := by decide
/-- S6: a store that clears the run bit is the last instruction. -/
theorem test_sti_mcr :
    (after (start 0x3000 [(0, 0x7FFF)] [(0x3000, 0xB001), (0x3002, 0xFFFE)])).map
      (fun t => (t.rawRead 0xFFFE, t.pc, (after t).isSome)) = some (0x7FFF, 0x3001, false) := by decide
/-- S8: the pointer cell is overwritten by the data. -/
theorem test_sti_own_pointer : seesCell (start 0x3000 [(3, 0xAAAA)] [(0x3000, 0xB600), (0x3001, 0x3001)]) 0x3001 =
    some (0xAAAA, 2, 0x3001) := by decide
/-- S10: the stored register is the base. -/
theorem test_str : seesCell (start 0x3000 [(6, 0x4000)] [(0x3000, 0x7DBF)]) 0x3FFF = some (0x4000, 2, 0x3001) := by decide
/-- BR table: z taken on the reset flags, p not. -/
theorem test_br : sees (start 0x3000 [] [(0x3000, 0x0403)]) 0 = some (0, 2, 0x3004) ∧
    sees (start 0x3000 [] [(0x3000, 0x0203)]) 0 = some (0, 2, 0x3001) := by decide
/-- B5: the target wraps downward. -/
theorem test_br_wraps : sees (start 0 [] [(0, 0x0F00)]) 0 = some (0, 2, 0xFF01) := by decide
/-- B8. -/
theorem test_jmp : sees (start 0x3000 [(7, 0x3456)] [(0x3000, 0xC1C0)]) 7 = some (0x3456, 2, 0x3456) := by decide
/-- B11. -/
theorem test_jsr : sees (start 0x3000 [] [(0x3000, 0x4C00)]) 7 = some (0x3001, 2, 0x2C01) := by decide
/-- B15, V5: through R7 itself. -/
theorem test_jsrr_r7 : sees (start 0x3000 [(7, 0x5000)] [(0x3000, 0x41C0)]) 7 = some (0x3001, 2, 0x5000) := by decide
/-- T1. -/
theorem test_trap : sees (start 0x3005 [(7, 0x9999)] [(0x3005, 0xF025), (0x25, 0x0520)]) 7 =
    some (0x3006, 2, 0x0520) := by decide
/-- T6: no table lookup, R7 and flags untouched. -/
theorem test_trapGetc :
    (after (start 0x3000 [(7, 0x1111)] [(0x3000, 0xF020), (0x20, 0x4444)] [0x61, 0x62])).map
      (fun t => (t.reg 0, t.reg 7, t.cin, t.pc, t.psr)) = some (0x61, 0x1111, [0x62], 0x3001, 2) := by decide
/-- T8: held, nothing changed. -/
theorem test_trapGetc_holds :
    (after (start 0x3000 [(0, 0x1234)] [(0x3000, 0xF020)])).map (fun t => (t.reg 0, t.pc, t.psr, t.fault)) =
      some (0x1234, 0x3000, 2, none) := by decide +kernel
/-- V8, T11: the fault, and no further step. -/
theorem test_rti : (after (start 0x3000 [(0, 5)] [(0x3000, 0x8ABC)])).map
    (fun t => (t.fault, t.pc, t.reg 0, (after t).isSome)) =
      some (some .unimplementedOpcode, 0x3001, 5, false) := by decide
/-- V8. -/
theorem test_reserved : (after (start 0x3000 [] [(0x3000, 0xDFFF)])).map (fun t => (t.fault, t.pc)) =
    some (some .unimplementedOpcode, 0x3001) := by decide
/-- F3: a fetch from KBSR with input waiting is an RTI. -/
theorem test_fetch_kbsr : (after (start 0xFE00 [] [] [0x41])).map (fun t => (t.fault, t.pc, t.cin)) =
    some (some .unimplementedOpcode, 0xFE01, [0x41]) := by decide
/-- F4: a fetch from KBDR consumes a byte and is a no-op. -/
theorem test_fetch_kbdr : (after (start 0xFE02 [] [] [0x41, 0x42])).map (fun t => (t.fault, t.pc, t.cin)) =
    some (none, 0xFE03, [0x42]) := by decide
/-- V7: the RTI behind a cleared run bit is never fetched. -/
theorem test_halted : (after (start 0x3000 [] [(0xFFFE, 0x7FFF), (0x3000, 0x8000)])).isSome = false := by decide

/-! ## Other parameters than the defaults (R8) -/

/-- Another machine of the kind: devices and MCR elsewhere, ready bit 0, N in bit 1 and Z in bit 2, BR and LD with each other's
numbers. -/
def otherParams : Params := { Params.default with
  kbsrAddr := 0x8000, kbdrAddr := 0x8001, dsrAddr := 0x8002, ddrAddr := 0x8003, mcrAddr := 0x8004
  readyMask := 1, psrN := 1, psrZ := 2, opBr := 0b0010, opLd := 0b0000
  addrs_distinct := by decide, ready_is_one_bit := by decide, flags_distinct := by decide
  opcodes_distinct := by decide, no_device_trap := by decide }

/-- Its opcode numbers, its MCR after `create()`, its status register, and BRz taken on the flags of reset. -/
theorem test_other_parameters : decode otherParams 0x0402 = .ld 2 2 ∧ decode otherParams 0x2403 = .br 0b010 3 ∧
    (State.create otherParams).rawRead 0x8004 = 0x8000 ∧ (State.create otherParams).rawRead 0xFFFE = 0 ∧
    (State.create otherParams).psr = 0b100 ∧ (State.create otherParams).brtest 0b010 = true ∧
    (State.create otherParams).brtest 0b101 = false ∧
    ((State.create otherParams).memRead 0x8002).1 = 1 := by decide

/-! ## The loader -/

/-- The origin cell and `pc` after a load of the reset state. -/
def loaded (bytes : List Byte) (a : Word) : Option (LoadResult × Word × Word) :=
  match State.reset.load bytes with
  | .next (r, s) => some (r, s.rawRead a, s.pc)
  | _ => none

/-- LD1, LD2: the bound is exact. -/
theorem test_load_bound : loaded [0xFF, 0xFF, 0x12, 0x34] 0xFFFF = some (.success, 0x1234, 0xFFFF) ∧
    loaded [0xFF, 0xFF, 0x12, 0x34, 0x56, 0x78] 0xFFFF = some (.inputTooLarge, 0, 0x3000) := by decide
/-- LD5, D21: a trailing odd byte is ignored and a buffer with no origin is refused. -/
theorem test_load_odd_and_short : loaded [0x40, 0x00, 0xAB, 0xCD, 0xEF] 0x4001 = some (.success, 0, 0x4000) ∧
    loaded [0x40] 0 = none := by decide
/-- LD6: an image may cover the MCR cell. -/
theorem test_load_mcr : loaded [0xFF, 0xFE, 0x00, 0x00] 0xFFFE = some (.success, 0, 0xFFFE) := by decide

/-! ## Assembly notation -/

/-- The alias table of R110, and the two texts of the source's example. -/
theorem test_alias_words : encode Params.default Alias.ret.expansion = 0xC1C0 ∧ encode Params.default Alias.nop.expansion = 0x0000 ∧
    encode Params.default Alias.getc.expansion = 0xF020 ∧ encode Params.default Alias.out.expansion = 0xF021 ∧ encode Params.default Alias.puts.expansion = 0xF022 ∧
    encode Params.default Alias.inp.expansion = 0xF023 ∧ encode Params.default Alias.putsp.expansion = 0xF024 ∧
    encode Params.default Alias.halt.expansion = 0xF025 := by decide
theorem test_text_source_example : assemblyText Params.default (.andImm 0 0 0) 0x3000 = "AND R0,R0,#0" ∧
    assemblyText Params.default (.addImm 0 0 5) 0x3001 = "ADD R0,R0,#5" := by decide +kernel
/-- A label out of reach has no offset; one just in reach has the extreme one. -/
theorem test_label_offset : labelOffset 9 0x3000 0x3100 = some 0xFF ∧ labelOffset 9 0x3000 0x3101 = none ∧
    labelOffset 9 0x3000 0x2F01 = some 0x100 := by decide

/-! ## Memory -/

/-- Writing the value of reset takes the entry out again: equal memories are equal lists. -/
theorem test_memory_canonical : (Memory.writeCell 0xFFFE (Memory.writeCell 0xFFFE [] 0x3000 0x1234) 0x3000 0) = [] ∧
    (Memory.writeCell 0xFFFE (Memory.writeCell 0xFFFE [] 0xFFFE 0) 0xFFFE 0x8000) = [] := by decide

/-! ## Witnesses: for each statement with hypotheses, values that meet them -/

theorem witness_DecodeOfEncode : (Instr.trap 0x25).WellFormed ∧ Instr.trapGetc.WellFormed := by decide
theorem witness_IgnoredBitsTakeNoPart :
    (0x9200 : Word) &&& (decode Params.default 0x923F).significantBits = 0x923F &&& (decode Params.default 0x923F).significantBits := by decide
theorem witness_ByteStreamsDecode : (Instr.addImm 0 0 5).WellFormed := by decide
/-- Each clause at the ends of its range, and a word outside on either side of each. -/
theorem witness_ExactlyRtiAndReservedWordsFault : State.reset.fault = none ∧
    (∀ ir ∈ [(0x8000 : Word), 0x8FFF, 0xD000, 0xDFFF],
      0x8000 ≤ ir.toNat ∧ ir.toNat ≤ 0x8FFF ∨ 0xD000 ≤ ir.toNat ∧ ir.toNat ≤ 0xDFFF) ∧
    ∀ ir ∈ [(0x7FFF : Word), 0x9000, 0xCFFF, 0xE000],
      ¬ (0x8000 ≤ ir.toNat ∧ ir.toNat ≤ 0x8FFF ∨ 0xD000 ≤ ir.toNat ∧ ir.toNat ≤ 0xDFFF) := by
  refine ⟨rfl, ?_, ?_⟩ <;> simp
theorem witness_SignExtensionFollowsFormula : (1 ≤ 1 ∧ 1 ≤ 16) ∧ (1 ≤ 16 ∧ 16 ≤ 16) := by decide
theorem witness_SetccLeavesExactlyOneFlag : 0x8000 ≤ (0x8000 : Word).toNat ∧ (0 : Word).toNat = 0 ∧
    (1 ≤ (1 : Word).toNat ∧ (1 : Word).toNat ≤ 0x7FFF) ∧ (1 ≤ (0x7FFF : Word).toNat ∧ (0x7FFF : Word).toNat ≤ 0x7FFF) := by
  decide
theorem witness_BranchTestComparesBitForBit : (∀ nzp offset9, Instr.lea 0 1 ≠ .br nzp offset9) ∧
    ∃ t, exec (.lea 0 1) State.reset = .next t := by
  refine ⟨fun _ _ h => ?_, _, rfl⟩
  cases h
theorem witness_MemReadRoutesByAddress : State.reset.cin = [] ∧ (start 0 [] [] [0x41]).cin = 0x41 :: [] ∧
    ((0xFE01 : Word) ≠ Params.default.kbsrAddr ∧ (0xFE01 : Word) ≠ Params.default.kbdrAddr ∧ (0xFE01 : Word) ≠ Params.default.dsrAddr ∧
      (0xFE01 : Word) ≠ Params.default.ddrAddr) := by decide
theorem witness_MemWriteRoutesByAddress : Params.default.mcrAddr ≠ Params.default.kbsrAddr ∧ Params.default.mcrAddr ≠ Params.default.kbdrAddr ∧
    Params.default.mcrAddr ≠ Params.default.dsrAddr ∧ Params.default.mcrAddr ≠ Params.default.ddrAddr := by decide
theorem witness_StoreThenLoadSameAddress :
    isDeviceAddr Params.default ((start 0 [(1, 0x4000)] []).basePlusOffset 1 (-1)) = false ∧
      isDeviceAddr Params.default ((start 0 [(1, 0xFE00)] []).basePlusOffset 1 2) = true := by decide
/-- A word for the encoding clause of each instruction's statement. -/
theorem witness_encoding_clauses :
    ((0x1401 : Word).extractLsb' 12 4 = 0b0001 ∧ (0x1401 : Word).getLsbD 5 = false) ∧
    ((0x1025 : Word).extractLsb' 12 4 = 0b0001 ∧ (0x1025 : Word).getLsbD 5 = true) ∧
    ((0x5642 : Word).extractLsb' 12 4 = 0b0101 ∧ (0x5642 : Word).getLsbD 5 = false) ∧
    ((0x5020 : Word).extractLsb' 12 4 = 0b0101 ∧ (0x5020 : Word).getLsbD 5 = true) ∧
    (0x923F : Word).extractLsb' 12 4 = 0b1001 ∧ (0x2202 : Word).extractLsb' 12 4 = 0b0010 ∧
    (0xA401 : Word).extractLsb' 12 4 = 0b1010 ∧ (0x673E : Word).extractLsb' 12 4 = 0b0110 ∧
    (0xE1FF : Word).extractLsb' 12 4 = 0b1110 ∧ (0x3203 : Word).extractLsb' 12 4 = 0b0011 ∧
    (0xB001 : Word).extractLsb' 12 4 = 0b1011 ∧ (0x7B9F : Word).extractLsb' 12 4 = 0b0111 ∧
    (0x0403 : Word).extractLsb' 12 4 = 0b0000 ∧ (0xC080 : Word).extractLsb' 12 4 = 0b1100 ∧
    ((0x4802 : Word).extractLsb' 12 4 = 0b0100 ∧ (0x4802 : Word).getLsbD 11 = true) ∧
    ((0x41C0 : Word).extractLsb' 12 4 = 0b0100 ∧ (0x41C0 : Word).getLsbD 11 = false) ∧
    ((0xF025 : Word).extractLsb' 12 4 = 0b1111 ∧ (0xF025 : Word).extractLsb' 0 8 ≠ 0x20#8) ∧
    ((0xFF20 : Word).extractLsb' 12 4 = 0b1111 ∧ (0xFF20 : Word).extractLsb' 0 8 = 0x20#8) ∧
    (0x8ABC : Word).extractLsb' 12 4 = 0b1000 ∧ (0xDFFF : Word).extractLsb' 12 4 = 0b1101 := by decide
theorem witness_BranchOnFlags : (0b010 : BitVec 3) &&& State.reset.psr.extractLsb' 0 3 ≠ 0 ∧
    (0b101 : BitVec 3) &&& State.reset.psr.extractLsb' 0 3 = 0 := by decide
theorem witness_BranchOnAllOrNone : State.reset.PsrLegal := by decide
theorem witness_TrapGetcTakesOneByte : (start 0x3001 [] [] [0x61, 0x62]).cin = 0x61 :: [0x62] := by decide
/-- A held state; the same with a byte about to arrive; and one that is held after an empty move of the environment. -/
theorem witness_HeldCoreWaits : (start 0x3000 [] [(0x3000, 0xF020)]).Held ∧
    (start 0x3000 [] [(0x3000, 0xF020)]).arrivals = [] ∧
    ({ start 0x3000 [] [(0x3000, 0xF020)] with arrivals := [[0x41]] } : State).Held ∧
    ({ start 0x3000 [] [(0x3000, 0xF020)] with arrivals := [[], [0x41]] } : State).environmentMove.Held := by decide
theorem witness_StepKeepsInvariant : (start 0x3000 [(1, 0x1234)] [(0x3000, 0x3203)]).Inv ∧
    ∃ t, step (start 0x3000 [(1, 0x1234)] [(0x3000, 0x3203)]) = .next t :=
  ⟨by decide, exists_next_of_after (by decide)⟩
theorem witness_StepRunsDecodedInstruction : (start 0x3000 [] [(0x3000, 0x1025)]).Running ∧
    (Instr.addImm 0 0 5).WellFormed ∧ isDeviceAddr Params.default (start 0x3000 [] [(0x3000, 0x1025)]).pc = false ∧
    (start 0x3000 [] [(0x3000, 0x1025)]).rawRead 0x3000 = encode Params.default (.addImm 0 0 5) := by decide
theorem witness_StepIsEnabledUnlessRunEnded : State.reset.raiseUnimplementedOpcode.Faulted ∧
    (start 0x3000 [] [(0xFFFE, 0x7FFF)]).Final ∧ State.reset.Running ∧
    (start 0x3000 [] [(0x3000, 0xF020)]).environmentMove.Held := by decide
/-- A session whose machine has halted; and a store of 0x7FFF to the MCR by each of the three stores. -/
theorem witness_HaltTestPrecedesFetch :
    ((start 0x3000 [] [(0xFFFE, 0x7FFF)]).fault = none ∧
      ((start 0x3000 [] [(0xFFFE, 0x7FFF)]).rawRead Params.default.mcrAddr).getLsbD 15 = false) ∧
    (Instr.st 0 0xFE).storeAddress (start 0xFF00 [(0, 0x7FFF)] []) = some Params.default.mcrAddr ∧
    (Instr.sti 0 0).storeAddress (start 0x3001 [(0, 0x7FFF)] [(0x3001, 0xFFFE)]) = some Params.default.mcrAddr ∧
    (Instr.str 0 1 0).storeAddress (start 0x3001 [(0, 0x7FFF), (1, 0xFFFE)] []) = some Params.default.mcrAddr ∧
    ((start 0xFF00 [(0, 0x7FFF)] []).reg 0).getLsbD 15 = false := by decide
/-- A step that faults and one that does not. -/
theorem witness_OnlyFaultingOpcodesSetLatch :
    (∃ t, step (start 0x3000 [] [(0x3000, 0x8000)]) = .next t) ∧ ∃ t, step State.reset = .next t :=
  ⟨exists_next_of_after (by decide), exists_next_of_after (by decide)⟩
/-- An instruction of the seven, one that is not, and a load. -/
theorem witness_PsrWritersAreTheSeven :
    ((∃ t, exec (.lea 0 1) State.reset = .next t) ∧ (Instr.lea 0 1).setsFlags = true) ∧
    ((∃ t, exec (.jsr 1) State.reset = .next t) ∧ (Instr.jsr 1).setsFlags = false) ∧
    ∃ r t, State.reset.load [0x40, 0x00] = .next (r, t) :=
  ⟨⟨⟨_, rfl⟩, rfl⟩, ⟨⟨_, rfl⟩, rfl⟩, _, _, rfl⟩
theorem witness_OnlyDestinationRegisterChanges :
    (∃ t, step (start 0x3000 [] [(0x3000, 0x1025)]) = .next t) ∧
      (start 0x3000 [] [(0x3000, 0x1025)]).environmentMove.nextInstr.writtenReg ≠ some 1 :=
  ⟨exists_next_of_after (by decide), by decide⟩
/-- ST R1,#3 at 0x3000 stores to 0x3004: the byte cell just above it and the device cells are outside. -/
theorem witness_OnlyStoredCellChanges :
    (∃ t, step (start 0x3000 [(1, 0x1234)] [(0x3000, 0x3203)]) = .next t) ∧
      (start 0x3000 [(1, 0x1234)] [(0x3000, 0x3203)]).environmentMove.nextInstr.storeAddress
        (start 0x3000 [(1, 0x1234)] [(0x3000, 0x3203)]).environmentMove.fetch.2 = some 0x3004 ∧
      (2 * (0x3004 : Word).toNat + 2 ≠ 2 * (0x3004 : Word).toNat ∧
        2 * (0x3004 : Word).toNat + 2 ≠ 2 * (0x3004 : Word).toNat + 1) ∧
      isDeviceAddr Params.default 0xFE00 = true :=
  ⟨exists_next_of_after (by decide), by decide, by decide, by decide⟩
/-- Two states that differ in the array cell at KBSR alone. -/
theorem witness_DeviceCellsAreUnobservable :
    SameButDeviceCells State.reset (State.reset.rawWrite 0xFE00 0x1234) :=
  ⟨fun _ => rfl, rfl, rfl, rfl, rfl, rfl, rfl, rfl, fun a h => State.rawWrite_rawRead_other _ _ fun e => by
    rw [e] at h; exact absurd h (by decide)⟩
/-- The first of them steps. -/
theorem witness_DeviceCellsAreUnobservable_steps : ∃ t, step State.reset = .next t := exists_next_of_after (by decide)
/-- F1: at the top of memory. -/
theorem witness_PcAdvancesByOne : (∃ t, step (start 0xFFFF [] [(0xFFFF, 0x1021)]) = .next t) ∧
    (start 0xFFFF [] [(0xFFFF, 0x1021)]).environmentMove.nextInstr.movesPc = false :=
  ⟨exists_next_of_after (by decide), by decide⟩
theorem witness_OutputGrowsOnlyByDdrStores :
    ∃ t, step (start 0x3000 [(0, 0x0041)] [(0x3000, 0xB001), (0x3002, 0xFE06)]) = .next t :=
  exists_next_of_after (by decide)
theorem witness_InputIsTakenFromFront :
    ∃ t, step { start 0x3000 [] [(0x3000, 0xF020)] [0x61] with arrivals := [[0x62], [0x63]] } = .next t :=
  exists_next_of_after (by decide)
theorem witness_FetchFromDevices : (start 0xFE00 [] []).pc = Params.default.kbsrAddr ∧ (start 0xFE02 [] []).pc = Params.default.kbdrAddr ∧
    (start 0xFE04 [] []).pc = Params.default.dsrAddr ∧ (start 0xFE06 [] []).pc = Params.default.ddrAddr ∧
    (start 0xFFFE [] []).pc = Params.default.mcrAddr ∧ (start 0xFFFE [] []).runBit = true := by decide
/-- The hypotheses of `StoreIsSeenByNextFetch` on a state whose next instruction is to be `i`. -/
def storesToNext (s : State) (i : Instr) (sr : Reg) : Bool :=
  s.fault == none && s.runBit && s.environmentMove.nextInstr == i &&
    i.storeAddress s.environmentMove.fetch.2 == some (s.pc + 1) && !isDeviceAddr s.params (s.pc + 1) &&
    (s.pc + 1 != s.params.mcrAddr || (s.reg sr).getLsbD 15)
/-- ST, STI and STR, and a ST just below the MCR of a word with bit 15 set. -/
theorem witness_StoreIsSeenByNextFetch : storesToNext (start 0x3001 [(0, 0x1267)] [(0x3001, 0x3000)]) (.st 0 0) 0 = true ∧
    storesToNext (start 0x3001 [(0, 0x1267)] [(0x3001, 0xB001), (0x3003, 0x3002)]) (.sti 0 1) 0 = true ∧
    storesToNext (start 0x3001 [(0, 0x1267), (1, 0x3003)] [(0x3001, 0x707F)]) (.str 0 1 (-1)) 0 = true ∧
    storesToNext (start 0xFFFD [(0, 0x9267)] [(0xFFFD, 0x3000)]) (.st 0 0) 0 = true := by decide
theorem witness_ImageWordsAreBigEndian : ([0xAB, 0xCD, 0xEF] : List Byte)[2 * 0]? = some 0xAB ∧
    ([0xAB, 0xCD, 0xEF] : List Byte)[2 * 0 + 1]? = some 0xCD := by decide
/-- Exactly 65536, the word at the last cell, and a cell outside. -/
theorem witness_LoadRoundTrip : 0xFFFF + ([0x12, 0x34] : List Byte).length / 2 ≤ 65536 ∧
    (wordsOfBytes [0x12, 0x34])[0]? = some 0x1234 ∧ (0xFFFF : Word).toNat = 0xFFFF + 0 ∧
    (0xFFFE : Word).toNat < 0xFFFF ∧ State.reset.memWf = true := by decide
theorem witness_LoadTooLargeChangesNothing : 0xFF * 256 + 0xFF + ([1, 2, 3, 4] : List Byte).length / 2 > 65536 ∧
    0xFF * 256 + 0xFF + ([1, 2] : List Byte).length / 2 ≤ 65536 := by decide
theorem witness_HostInteractionsAreGuarded : (Session.create Params.default).running = false ∧
    (Session.create Params.default).machine.fault = none ∧
    State.reset.raiseUnimplementedOpcode.Faulted ∧ ([0x40] : List Byte).length < 2 ∧ 2 ≤ ([0x40, 0x00] : List Byte).length ∧
    ({ machine := State.reset, running := true } : Session).running = true := by decide
/-- A step, and the two ends of a run. -/
theorem witness_HostInteractionsAreGuarded_steps : (∃ s, step State.reset = .next s) ∧
    step (start 0x3000 [] [(0xFFFE, 0x7FFF)]) = .fault .halted ∧
    step State.reset.raiseUnimplementedOpcode = .fault .unimplementedOpcode :=
  ⟨exists_next_of_after (by decide), rfl, rfl⟩
/-- Two machines: a step of the first; a read of the second's output; and one world in which only the second differs. -/
theorem witness_MachinesAreIndependent :
    let t : Session := { machine := State.reset, running := true }
    (∃ r w', (World.mk Params.default [t, t]).move (.on 0 .coreStep) = .next (r, w')) ∧
      (World.mk Params.default [t, t]).machines[0]? =
        (World.mk Params.default [t, Session.create Params.default]).machines[0]? ∧
      ∃ r t', (Session.mk State.reset.raiseUnimplementedOpcode true).interact .consoleOutput = .next (r, t') :=
  ⟨⟨_, _, rfl⟩, rfl, _, _, rfl⟩
theorem witness_ParametersNeverChange : (∃ t, step State.reset = .next t) ∧
    (∃ r t', (Session.create Params.default).interact .run = .next (r, t')) ∧
    (∃ r w', (World.mk Params.default [Session.create Params.default]).move .create = .next (r, w')) ∧
    ∀ t ∈ (World.mk Params.default [Session.create Params.default]).machines, t.machine.params = Params.default :=
  ⟨exists_next_of_after (by decide), ⟨_, _, rfl⟩, ⟨_, _, rfl⟩, by simp [Session.create]⟩
/-- The states of reset have the default parameters, and the defaults meet every hypothesis on them. -/
theorem witness_default_parameters : State.reset.params = Params.default ∧ Params.default.readyMask = 0x8000 ∧
    Params.default.opBr = 0b0000 := by decide
/-- R181's clause on a plain vector table. -/
theorem witness_TrapThroughVectorTable : VectorTablePlain State.reset.params := fun a h =>
  (isDeviceAddr_eq_false_iff _ a).2 (by refine ⟨?_, ?_, ?_, ?_⟩ <;> rintro rfl <;> revert h <;> decide)
theorem witness_PlacedWordRunsNext : 0xFFFF < 65536 := by decide

end Sys2Proof.Tests
end

section
/-! PROOFS. Sign and zero extension as numbers (00_scope.md R10): the rules that statements about offsets and immediates use. -/

namespace Sys2Proof.Machine

/-- Sign extension of an `n`-bit field on the numbers: the first formula of R10. -/
theorem toNat_sext {n : Nat} (hn : n ≤ 16) (u : BitVec n) : (sext u).toNat = sextNat n u.toNat := by
  have hpow : 2 ^ n ≤ 65536 := Nat.pow_le_pow_right (by decide) hn
  have hu := u.isLt
  rw [sext, BitVec.toNat_signExtend, BitVec.toNat_setWidth_of_le hn, BitVec.msb_eq_decide, sextNat]
  by_cases hsign : u.toNat < 2 ^ (n - 1)
  · simp [hsign]
  · simp only [decide_eq_true (not_lt.1 hsign), if_true, if_neg hsign]
    omega

/-- Zero extension of an `n`-bit field keeps the number. -/
theorem toNat_zext {n : Nat} (hn : n ≤ 16) (u : BitVec n) : (zext u).toNat = u.toNat :=
  BitVec.toNat_setWidth_of_le hn

/-- The low `n` bits of the sign extension are the field itself. -/
theorem setWidth_sext {n : Nat} (hn : n ≤ 16) (u : BitVec n) : (sext u).setWidth n = u := by
  apply BitVec.eq_of_getLsbD_eq
  intro k hk
  have hk16 : k < 16 := hk.trans_le hn
  simp [sext, BitVec.getElem_signExtend, hk, hk16]

/-- The sign of the extended word is the top bit of the field. -/
theorem getLsbD_sext_fifteen {n : Nat} (hn : n ≤ 16) (u : BitVec n) : (sext u).getLsbD 15 = u.getLsbD (n - 1) := by
  rw [sext, BitVec.getLsbD_signExtend, BitVec.msb_eq_getLsbD_last]
  rcases hn.lt_or_eq with hlt | rfl
  · simp [show ¬ 15 < n by omega]
  · rfl

/-- Flipping bit `m` of a number below `2^(m+1)` adds `2^m` where the bit was clear and subtracts it where the bit was set. -/
theorem xor_two_pow_of_lt {m u : Nat} (hu : u < 2 ^ (m + 1)) :
    u ^^^ 2 ^ m = if u < 2 ^ m then u + 2 ^ m else u - 2 ^ m := by
  have hadd {v : Nat} (hv : v < 2 ^ m) : v ^^^ 2 ^ m = v + 2 ^ m := by
    have hdiv : (v ^^^ 2 ^ m) / 2 ^ m = 1 := by
      simp [Nat.xor_div_two_pow, Nat.div_eq_of_lt hv]
    have hmod : (v ^^^ 2 ^ m) % 2 ^ m = v := by
      simp [Nat.xor_mod_two_pow, Nat.mod_eq_of_lt hv]
    have hsplit := Nat.div_add_mod (v ^^^ 2 ^ m) (2 ^ m)
    rw [hdiv, hmod] at hsplit
    omega
  split
  next hlow => exact hadd hlow
  next hhigh =>
    obtain ⟨v, rfl⟩ := Nat.exists_eq_add_of_le' (not_lt.1 hhigh)
    have hv : v < 2 ^ m := by rw [Nat.pow_succ] at hu; omega
    rw [← hadd hv, Nat.xor_xor_cancel_right, hadd hv, Nat.add_sub_cancel]

/-- The two formulas of R10 agree: flipping the sign bit and then subtracting it is sign extension. -/
theorem sextNat_eq_xor_sub {n u : Nat} (hpos : 1 ≤ n) (hn : n ≤ 16) (hu : u < 2 ^ n) :
    sextNat n u = ((u ^^^ 2 ^ (n - 1)) + 65536 - 2 ^ (n - 1)) % 65536 := by
  obtain ⟨m, rfl⟩ := Nat.exists_eq_add_of_le' hpos
  have hpow : 2 ^ (m + 1) ≤ 65536 := Nat.pow_le_pow_right (by decide) hn
  rw [sextNat, Nat.add_sub_cancel, xor_two_pow_of_lt hu]
  rw [Nat.pow_succ] at hu hpow ⊢
  split <;> omega

/-- Settles O7: the numbers by `toNat_sext` and `sextNat_eq_xor_sub`, the two laws bit by bit. -/
theorem signExtensionFollowsFormula : Obligations.SignExtensionFollowsFormula := by
  intro n hpos hn u
  have hlow : (sext u).toNat % 2 ^ n = u.toNat := by rw [← BitVec.toNat_setWidth, setWidth_sext hn]
  exact ⟨toNat_sext hn u, (toNat_sext hn u).trans (sextNat_eq_xor_sub hpos hn u.isLt), hlow,
    getLsbD_sext_fifteen hn u, toNat_zext hn u⟩

end Sys2Proof.Machine
end

section
/-! PROOFS. The flags of a written value as facts about its sign (10_state.md R28), what each class of instruction does to `psr`
(R29), and that the loader and `MemWrite` leave it alone. -/

namespace Sys2Proof.Machine

/-! ## The flags by the sign of the value -/

theorem getElem_fifteen_eq_toInt_neg (v : Word) : v[15] = decide (v.toInt < 0) := by
  rw [← BitVec.msb_eq_toInt, BitVec.msb_eq_getLsbD_last]
  rfl

/-- The value is negative, zero or positive, and its flag is N, Z or P accordingly (R28). -/
theorem flagsOf_cases_toInt (P : Params) (v : Word) :
    (v.toInt < 0 ∧ flagsOf P v = flagMask P.psrN) ∨ (v.toInt = 0 ∧ flagsOf P v = flagMask P.psrZ) ∨
      (0 < v.toInt ∧ flagsOf P v = flagMask Config.psrP) := by
  have hzero : v.toInt = 0 ↔ v = 0 := BitVec.toInt_inj (y := (0 : Word))
  rcases flagsOf_cases P v with ⟨hneg, hf⟩ | ⟨h0, hf⟩ | ⟨hnonneg, hne, hf⟩
  · rw [getElem_fifteen_eq_toInt_neg, decide_eq_true_iff] at hneg
    exact .inl ⟨hneg, hf⟩
  · exact .inr (.inl ⟨hzero.2 h0, hf⟩)
  · rw [getElem_fifteen_eq_toInt_neg, decide_eq_false_iff_not] at hnonneg
    rw [Ne, ← hzero] at hne
    exact .inr (.inr ⟨by omega, hf⟩)

/-- Since the three flags have three positions, the flag set says which sign the value has (R26, R28). -/
theorem flagsOf_eq_iff (P : Params) (v : Word) :
    (flagsOf P v = flagMask P.psrN ↔ v.toInt < 0) ∧ (flagsOf P v = flagMask P.psrZ ↔ v.toInt = 0) ∧
      (flagsOf P v = flagMask Config.psrP ↔ 0 < v.toInt) := by
  obtain ⟨hNZ, hNP, hZP⟩ := flag_positions_differ P
  have hmask {p q : Fin 3} : flagMask p = flagMask q ↔ p = q := ⟨flagMask_injective, congrArg flagMask⟩
  rcases flagsOf_cases_toInt P v with ⟨hv, hf⟩ | ⟨hv, hf⟩ | ⟨hv, hf⟩ <;> simp only [hf, hmask]
  · simp only [hNZ, hNP, true_iff, false_iff]
    omega
  · simp only [hNZ.symm, hZP, true_iff, false_iff]
    omega
  · simp only [hNP.symm, hZP.symm, true_iff, false_iff]
    omega

/-- `setcc(v)` is a condition-code update from `v`. -/
theorem flagsFrom_setccPsr (P : Params) (psr v : Word) : FlagsFrom P psr v (setccPsr P psr v) := by
  have hflags : (setccPsr P psr v).extractLsb' 0 3 = flagsOf P v := conditionFlags_setccPsr P psr v
  refine ⟨fun k hk => ?_, ?_⟩
  · rw [getLsbD_setccPsr, if_neg (by omega)]
  · rw [hflags]
    exact flagsOf_eq_iff P v

/-- Delivering a result leaves the flags of what the destination register then holds (R29). -/
theorem State.flagsFrom_writeResult (s : State) (dr : Reg) (v : Word) :
    FlagsFrom s.params s.psr ((s.writeResult dr v).reg dr) (s.writeResult dr v).psr := by
  rw [State.reg_writeResult_same, State.writeResult_psr]
  exact flagsFrom_setccPsr s.params s.psr v

/-! ## What an instruction does to `psr` (R29) -/

/-- Two reads one after the other, as LDI makes them, take at most console input (R152). -/
theorem State.memRead_memRead_frame (s : State) (a b : Word) :
    ((s.memRead a).2.memRead b).2 = { s with cin := ((s.memRead a).2.memRead b).2.cin } :=
  ((s.memRead a).2.memRead_frame b).trans (by simp)

/-- Each of the nine forms delivers one result into the register it names, from a state `u` in which its reads have at most
taken console input. -/
theorem exec_of_setsFlags {i : Instr} (h : i.setsFlags = true) (s : State) :
    ∃ (dr : Reg) (v : Word) (u : State), i.writtenReg = some dr ∧ u = { s with cin := u.cin } ∧
      exec i s = .next (u.writeResult dr v) := by
  cases i with
  | addReg dr | addImm dr | andReg dr | andImm dr | notReg dr | lea dr => exact ⟨dr, _, s, rfl, rfl, rfl⟩
  | ld dr | ldr dr => exact ⟨dr, _, _, rfl, s.memRead_frame _, rfl⟩
  | ldi dr => exact ⟨dr, _, _, rfl, s.memRead_memRead_frame _ _, rfl⟩
  | br | jmp | jsr | jsrr | rti | st | sti | str | trapGetc | trap | reserved => cases h

/-- TRAP 0x20 leaves the flags alone, whether it takes a byte or holds (R182, R129). -/
theorem execTrapGetc_psr {s t : State} (h : execTrapGetc s = .next t) : t.psr = s.psr := by
  rcases hcin : s.cin with _ | ⟨b, rest⟩
  · rw [execTrapGetc_nil hcin] at h
    cases h
    exact s.hold_psr
  · rw [execTrapGetc_cons hcin] at h
    cases h
    exact State.setReg_psr ..

/-- No other form touches the flags. -/
theorem exec_psr_of_not_setsFlags {i : Instr} (hi : i.setsFlags = false) {s t : State} (h : exec i s = .next t) :
    t.psr = s.psr := by
  cases i with
  | br nzp offset9 =>
    cases h
    split
    · exact State.setPc_psr ..
    · rfl
  | jmp | jsr | jsrr | rti | reserved => cases h; rfl
  | st | str => cases h; exact State.memWrite_psr ..
  | sti sr offset9 =>
    cases h
    rw [State.memWrite_psr, State.indirect, State.memRead_psr]
  | trap trapvect8 =>
    cases h
    rw [State.enterTrap_eq, State.setPc_psr, State.setReg_psr, State.memRead_psr]
  | trapGetc => exact execTrapGetc_psr h
  | addReg | addImm | andReg | andImm | ld | ldi | ldr | lea | notReg => cases hi

/-! ## The loader (70_reset_and_hazards.md R218) -/

@[simp] theorem State.rawWrites_psr (s : State) (a : Word) (ws : List Word) : (s.rawWrites a ws).psr = s.psr := by
  rw [s.rawWrites_frame a ws]

theorem State.load_psr {s t : State} {bytes : List Byte} {r : LoadResult} (h : s.load bytes = .next (r, t)) :
    t.psr = s.psr := by
  match bytes with
  | [] | [_] => cases h
  | hi :: lo :: rest =>
    simp only [State.load] at h
    split at h
    · cases h
      rw [State.setPc_psr, State.rawWrites_psr]
    · cases h
      rfl

/-- Settles O45: `exec_of_setsFlags` with the flags of a delivered result, and the frames of everything else. -/
theorem psrWritersAreTheSeven : Obligations.PsrWritersAreTheSeven := by
  refine ⟨fun i s t h => ⟨fun hi => ?_, fun hi => exec_psr_of_not_setsFlags hi h⟩,
    fun s t bytes r => State.load_psr, State.memWrite_psr⟩
  obtain ⟨dr, v, u, hdr, hu, hexec⟩ := exec_of_setsFlags hi s
  rw [hexec] at h
  cases h
  have hparams : u.params = s.params := by rw [hu]
  have hpsr : u.psr = s.psr := by rw [hu]
  refine ⟨dr, hdr, ?_⟩
  rw [← hparams, ← hpsr]
  exact u.flagsFrom_writeResult dr v

end Sys2Proof.Machine
end

section
/-! PROOFS. The ALU and the addresses as numbers (41_operate.md R140), what a delivered result looks like from outside (10_state.md
R29), and the operate instructions ADD and AND in both forms (R141 to R144). -/

namespace Sys2Proof

/-! ## Decoding of ADD and AND (30_encoding.md R91, R102) -/

/-- The top four bits of a word, written out by position, select the opcode whose number they are. -/
theorem Opcode.ofBits_opcodeField {P : Params} {ir : Word} {o : Opcode} (h : ir.extractLsb' 12 4 = o.bits P) :
    Opcode.ofBits P (opcodeField ir) = o :=
  (Opcode.ofBits_eq_iff P _ o).2 h

theorem decode_add {P : Params} {ir : Word} (h : ir.extractLsb' 12 4 = Config.opAdd) :
    decode P ir = if ir.getLsbD 5 then .addImm (regHi ir) (regMid ir) (imm5Field ir)
      else .addReg (regHi ir) (regMid ir) (regLo ir) := by
  rw [decode, Opcode.ofBits_opcodeField (o := .add) h]
  rfl

theorem decode_and {P : Params} {ir : Word} (h : ir.extractLsb' 12 4 = Config.opAnd) :
    decode P ir = if ir.getLsbD 5 then .andImm (regHi ir) (regMid ir) (imm5Field ir)
      else .andReg (regHi ir) (regMid ir) (regLo ir) := by
  rw [decode, Opcode.ofBits_opcodeField (o := .and) h]
  rfl

end Sys2Proof

namespace Sys2Proof.Machine

/-! ## The `alu` and the addresses (R140) -/

theorem toNat_aluAdd (a b : Word) : (aluAdd a b).toNat = (a.toNat + b.toNat) % 65536 := BitVec.toNat_add a b

theorem getLsbD_aluAnd (a b : Word) (k : Nat) : (aluAnd a b).getLsbD k = (a.getLsbD k && b.getLsbD k) :=
  BitVec.getLsbD_and

/-- Flipping all sixteen bits is the complement. -/
theorem aluNot_eq_not (a : Word) : aluNot a = ~~~a := BitVec.xor_allOnes

theorem toNat_aluNot (a : Word) : (aluNot a).toNat = 65535 - a.toNat := by
  rw [aluNot_eq_not, BitVec.toNat_not]

/-- The adder on a word and a sign-extended field: the form of every immediate sum, effective address and branch target. -/
theorem toNat_aluAdd_sext {n : Nat} (hn : n ≤ 16) (a : Word) (u : BitVec n) :
    (aluAdd a (sext u)).toNat = (a.toNat + sextNat n u.toNat) % 65536 := by
  rw [toNat_aluAdd, toNat_sext hn]

theorem State.toNat_pcRelative {n : Nat} (hn : n ≤ 16) (s : State) (offset : BitVec n) :
    (s.pcRelative offset).toNat = (s.pc.toNat + sextNat n offset.toNat) % 65536 :=
  toNat_aluAdd_sext hn s.pc offset

theorem State.toNat_basePlusOffset (s : State) (baseR : Reg) (offset6 : BitVec 6) :
    (s.basePlusOffset baseR offset6).toNat = ((s.reg baseR).toNat + sextNat 6 offset6.toNat) % 65536 :=
  toNat_aluAdd_sext (by decide) (s.reg baseR) offset6

/-- Every bit of the extended word from the field's top bit upward is that top bit (R10). -/
theorem getLsbD_sext {n : Nat} (hpos : 1 ≤ n) (u : BitVec n) {k : Nat} (hk : k < 16) :
    (sext u).getLsbD k = u.getLsbD (min k (n - 1)) := by
  rw [sext, BitVec.getLsbD_signExtend, BitVec.msb_eq_getLsbD_last, decide_eq_true hk, Bool.true_and]
  split
  next hfield => rw [Nat.min_eq_left (by omega)]
  next habove => rw [Nat.min_eq_right (by omega)]

/-- The AND with a sign-extended field, bit by bit; above bit 15 both sides are clear. -/
theorem getLsbD_aluAnd_sext {n : Nat} (hpos : 1 ≤ n) (a : Word) (u : BitVec n) (k : Nat) :
    (aluAnd a (sext u)).getLsbD k = (a.getLsbD k && u.getLsbD (min k (n - 1))) := by
  rw [getLsbD_aluAnd]
  rcases lt_or_ge k 16 with hk | hk
  · rw [getLsbD_sext hpos u hk]
  · rw [BitVec.getLsbD_of_ge a k hk, Bool.false_and, Bool.false_and]

/-- Settles O8: the three operations one by one, and the same adder for the three forms of address. -/
theorem aluComputesModulo : Obligations.AluComputesModulo :=
  ⟨toNat_aluAdd, getLsbD_aluAnd, fun a => ⟨toNat_aluNot a, rfl⟩, State.toNat_pcRelative (by decide),
    State.toNat_pcRelative (by decide), State.toNat_basePlusOffset⟩

/-! ## A delivered result, from outside (R29) -/

/-- Delivering a result into `dr`, from a state `u` in which reads have at most taken console input since `s`, changes that
register and the flags and nothing else. -/
theorem wroteResult_writeResult {s u : State} (hu : u = { s with cin := u.cin }) (dr : Reg) (v : Word) :
    WroteResult s (u.writeResult dr v) dr := by
  have hflags := u.flagsFrom_writeResult dr v
  have hother {r : Reg} (hr : r ≠ dr) := u.reg_writeResult_other v hr
  rw [hu] at hflags hother ⊢
  exact ⟨fun r hr => hother hr, hflags, rfl, rfl, rfl, rfl, rfl, rfl⟩

/-! ## ADD and AND (R141 to R144) -/

/-- Settles O14: bit 5 clear selects the form, `toNat_aluAdd` is the sum. -/
theorem addRegister : Obligations.AddRegister := by
  refine ⟨fun P ir hop hbit => ?_, fun dr sr1 sr2 s => ?_⟩
  · rw [decode_add hop, hbit]
    rfl
  · refine ⟨_, rfl, ?_, wroteResult_writeResult rfl dr _, rfl⟩
    rw [State.reg_writeResult_same, toNat_aluAdd]

/-- Settles O15: bit 5 set selects the form, `toNat_aluAdd_sext` is the sum. -/
theorem addImmediate : Obligations.AddImmediate := by
  refine ⟨fun P ir hop hbit => ?_, fun dr sr1 imm5 s => ?_⟩
  · rw [decode_add hop, hbit]
    rfl
  · refine ⟨_, rfl, ?_, wroteResult_writeResult rfl dr _, rfl⟩
    rw [State.reg_writeResult_same, toNat_aluAdd_sext (by decide)]

/-- Settles O16: bit 5 clear selects the form, `getLsbD_aluAnd` is the result bit by bit. -/
theorem andRegister : Obligations.AndRegister := by
  refine ⟨fun P ir hop hbit => ?_, fun dr sr1 sr2 s => ?_⟩
  · rw [decode_and hop, hbit]
    rfl
  · refine ⟨_, rfl, fun k => ?_, wroteResult_writeResult rfl dr _, rfl⟩
    rw [State.reg_writeResult_same, getLsbD_aluAnd]

/-- Settles O17: bit 5 set selects the form, `getLsbD_aluAnd_sext` is the result bit by bit. -/
theorem andImmediate : Obligations.AndImmediate := by
  refine ⟨fun P ir hop hbit => ?_, fun dr sr1 imm5 s => ?_⟩
  · rw [decode_and hop, hbit]
    rfl
  · refine ⟨_, rfl, fun k => ?_, wroteResult_writeResult rfl dr _, rfl⟩
    rw [State.reg_writeResult_same, getLsbD_aluAnd_sext (by decide)]

end Sys2Proof.Machine
end

section
/-! PROOFS. RTI and RESERVED (44_trap_system.md R183, R184): the words that decode to them, and the fault that is all they do. -/

namespace Sys2Proof

/-! ## Decoding of RTI and RESERVED (30_encoding.md R99, R102): bits 11:0 are not looked at -/

theorem decode_rti {P : Params} {ir : Word} (h : ir.extractLsb' 12 4 = Config.opRti) : decode P ir = .rti := by
  rw [decode, Opcode.ofBits_opcodeField (o := .rti) h]

theorem decode_reserved {P : Params} {ir : Word} (h : ir.extractLsb' 12 4 = Config.opReserved) :
    decode P ir = .reserved := by
  rw [decode, Opcode.ofBits_opcodeField (o := .reserved) h]

end Sys2Proof

namespace Sys2Proof.Machine

/-! ## Both forms raise `UnimplementedOpcode`, with no condition on the state -/

theorem exec_rti (s : State) : exec .rti s = .next s.raiseUnimplementedOpcode := rfl

theorem exec_reserved (s : State) : exec .reserved s = .next s.raiseUnimplementedOpcode := rfl

/-- Settles O34: the opcode number selects RTI by `decode_rti`, and the exception it raises is the latch alone. -/
theorem rtiFaults : Obligations.RtiFaults :=
  ⟨fun _ _ => decode_rti, exec_rti⟩

/-- Settles O35: the opcode number selects RESERVED by `decode_reserved`, and RTI raises the same exception. -/
theorem reservedFaults : Obligations.ReservedFaults :=
  ⟨fun _ _ => decode_reserved, fun s => ⟨exec_reserved s, (exec_reserved s).trans (exec_rti s).symm⟩⟩

end Sys2Proof.Machine
end

section
/-! PROOFS. The exception (60_exceptions.md R190): what the latch makes of the next step and of the run that asks for it. -/

namespace Sys2Proof.Machine

/-- The console environment does not touch the latch, so the step finds it set (40_instruction_cycle.md R128). -/
theorem step_faulted {s : State} (h : s.Faulted) : step s = .fault .unimplementedOpcode :=
  coreStep_faulted (s.environmentMove_fault.trans h)

/-- A run on a machine with the latch set returns the error, and the machine stays as it was (R190, D24). -/
theorem Session.coreStep_faulted {t : Session} (hrun : t.running = true) (h : t.machine.Faulted) :
    t.coreStep = .next (.runUnimplementedOpcode, { machine := t.machine, running := false }) := by
  rw [Session.coreStep, if_pos hrun, step_faulted h]

/-- Settles O36: the exception is the latch alone by definition, and `Session.coreStep_faulted` is the run's answer to it. -/
theorem exceptionEndsRun : Obligations.ExceptionEndsRun := fun s =>
  ⟨rfl, Session.coreStep_faulted rfl s.raiseUnimplementedOpcode_fault⟩

end Sys2Proof.Machine
end

section
/-! PROOFS. The loader's bound check (70_reset_and_hazards.md R217, R220): the origin and the word count as numbers of the buffer,
and the loader's answer on each side of `origin + word_count ≤ 65536`. -/

namespace Sys2Proof

/-- A big-endian byte pair as a number: the origin of an image, and each of its words (R64, R217). -/
theorem toNat_wordOfBytes (hi lo : Byte) : (wordOfBytes hi lo).toNat = hi.toNat * 256 + lo.toNat := by
  rw [wordOfBytes, BitVec.toNat_append, ← Nat.shiftLeft_add_eq_or_of_lt lo.isLt, Nat.shiftLeft_eq]

end Sys2Proof

namespace Sys2Proof.Machine

/-- The word count of an image (R217): a trailing odd byte counts for nothing. -/
theorem length_wordsOfBytes : (bytes : List Byte) → (wordsOfBytes bytes).length = bytes.length / 2
  | [] => rfl
  | [_] => (Nat.div_eq_of_lt Nat.one_lt_two).symm
  | _ :: _ :: rest => by
    have ih := length_wordsOfBytes rest
    simp only [wordsOfBytes, List.length_cons]
    omega

/-- The loader's answer when the image fits (R218). -/
theorem State.load_of_fits (s : State) {hi lo : Byte} {rest : List Byte}
    (h : hi.toNat * 256 + lo.toNat + rest.length / 2 ≤ 65536) :
    s.load (hi :: lo :: rest) =
      .next (.success, (s.rawWrites (wordOfBytes hi lo) (wordsOfBytes rest)).setPc (wordOfBytes hi lo)) := by
  rw [← toNat_wordOfBytes, ← length_wordsOfBytes] at h
  exact if_pos h

/-- The loader's answer when the image does not fit (R220): the check comes before any write. -/
theorem State.load_of_too_large (s : State) {hi lo : Byte} {rest : List Byte}
    (h : hi.toNat * 256 + lo.toNat + rest.length / 2 > 65536) :
    s.load (hi :: lo :: rest) = .next (.inputTooLarge, s) := by
  rw [← toNat_wordOfBytes, ← length_wordsOfBytes] at h
  exact if_neg (Nat.not_le_of_gt h)

/-- Settles O56: the loader's answer on each side of the bound. -/
theorem loadTooLargeChangesNothing : Obligations.LoadTooLargeChangesNothing := fun s _ _ _ =>
  ⟨s.load_of_too_large, fun h => ⟨_, s.load_of_fits h⟩⟩

end Sys2Proof.Machine
end

section
/-! PROOFS. The decoder and the encoder against one another (30_encoding.md R90 to R103): the words of each opcode, the fields
of an encoded word, and words that agree on the significant bits of a form. -/

namespace Sys2Proof

/-! ## The words of each opcode (R92 to R99, R102) -/

section
variable {P : Params} {ir : Word}

theorem decode_br (h : ir.extractLsb' 12 4 = P.opBr) : decode P ir = .br (nzpField ir) (offset9Field ir) := by
  rw [decode, Opcode.ofBits_opcodeField (o := .br) h]

theorem decode_ld (h : ir.extractLsb' 12 4 = P.opLd) : decode P ir = .ld (regHi ir) (offset9Field ir) := by
  rw [decode, Opcode.ofBits_opcodeField (o := .ld) h]

theorem decode_st (h : ir.extractLsb' 12 4 = P.opSt) : decode P ir = .st (regHi ir) (offset9Field ir) := by
  rw [decode, Opcode.ofBits_opcodeField (o := .st) h]

theorem decode_jsr (h : ir.extractLsb' 12 4 = P.opJsr) :
    decode P ir = if ir.getLsbD 11 then .jsr (offset11Field ir) else .jsrr (regMid ir) := by
  rw [decode, Opcode.ofBits_opcodeField (o := .jsr) h]
  rfl

theorem decode_ldr (h : ir.extractLsb' 12 4 = P.opLdr) :
    decode P ir = .ldr (regHi ir) (regMid ir) (offset6Field ir) := by
  rw [decode, Opcode.ofBits_opcodeField (o := .ldr) h]

theorem decode_str (h : ir.extractLsb' 12 4 = P.opStr) :
    decode P ir = .str (regHi ir) (regMid ir) (offset6Field ir) := by
  rw [decode, Opcode.ofBits_opcodeField (o := .str) h]

theorem decode_not (h : ir.extractLsb' 12 4 = P.opNot) : decode P ir = .notReg (regHi ir) (regMid ir) := by
  rw [decode, Opcode.ofBits_opcodeField (o := .not) h]

theorem decode_ldi (h : ir.extractLsb' 12 4 = P.opLdi) : decode P ir = .ldi (regHi ir) (offset9Field ir) := by
  rw [decode, Opcode.ofBits_opcodeField (o := .ldi) h]

theorem decode_sti (h : ir.extractLsb' 12 4 = P.opSti) : decode P ir = .sti (regHi ir) (offset9Field ir) := by
  rw [decode, Opcode.ofBits_opcodeField (o := .sti) h]

theorem decode_jmp (h : ir.extractLsb' 12 4 = P.opJmp) : decode P ir = .jmp (regMid ir) := by
  rw [decode, Opcode.ofBits_opcodeField (o := .jmp) h]

theorem decode_lea (h : ir.extractLsb' 12 4 = P.opLea) : decode P ir = .lea (regHi ir) (offset9Field ir) := by
  rw [decode, Opcode.ofBits_opcodeField (o := .lea) h]

theorem decode_trap (h : ir.extractLsb' 12 4 = P.opTrap) :
    decode P ir = if trapvect8Field ir = Config.getcVector then .trapGetc else .trap (trapvect8Field ir) := by
  rw [decode, Opcode.ofBits_opcodeField (o := .trap) h]

end

/-! ## Words that agree under a mask -/

/-- Words that agree under a mask have the same bit wherever the mask has one. -/
theorem getLsbD_eq_of_and_eq {a b m : Word} (h : a &&& m = b &&& m) {k : Nat} (hm : m.getLsbD k = true) :
    a.getLsbD k = b.getLsbD k := by
  simpa [hm] using congrArg (·.getLsbD k) h

/-- Words that agree under a mask have the same field wherever the mask covers the field. -/
theorem extractLsb'_eq_of_and_eq {a b m : Word} (h : a &&& m = b &&& m) {start len : Nat}
    (hm : m.extractLsb' start len = BitVec.allOnes len) : a.extractLsb' start len = b.extractLsb' start len := by
  simpa [BitVec.extractLsb'_and, hm] using congrArg (·.extractLsb' start len) h

/-- A field of the low twelve bits of an encoded instruction is that field of its operands' bits. -/
theorem extractLsb'_encode (P : Params) (i : Instr) {start len : Nat} (h : start + len ≤ 12) :
    (encode P i).extractLsb' start len = i.operandBits.extractLsb' start len :=
  BitVec.extractLsb'_append_eq_of_add_le h

/-- A word that agrees with an encoded instruction under a mask has the operands' bits wherever the mask has one below
bit 12. -/
theorem getLsbD_of_and_eq_encode {P : Params} {ir m : Word} {i : Instr} (h : ir &&& m = encode P i &&& m) {k : Nat}
    (hk : k < 12) (hm : m.getLsbD k = true) : ir.getLsbD k = i.operandBits.getLsbD k := by
  rw [getLsbD_eq_of_and_eq h hm, getLsbD_encode P i hk]

/-- The same for a field below bit 12 that the mask covers. -/
theorem extractLsb'_of_and_eq_encode {P : Params} {ir m : Word} {i : Instr} (h : ir &&& m = encode P i &&& m)
    {start len : Nat} (hlen : start + len ≤ 12) (hm : m.extractLsb' start len = BitVec.allOnes len) :
    ir.extractLsb' start len = i.operandBits.extractLsb' start len := by
  rw [extractLsb'_eq_of_and_eq h hm, extractLsb'_encode P i hlen]

/-- The form's mask covers the opcode: a word that agrees with an encoded instruction under it has its opcode number. -/
theorem opcode_of_and_eq_encode {P : Params} {ir : Word} {i : Instr}
    (h : ir &&& i.significantBits = encode P i &&& i.significantBits) : ir.extractLsb' 12 4 = i.opcode.bits P := by
  have hm : i.significantBits.extractLsb' 12 4 = BitVec.allOnes 4 := by
    cases i <;> simp only [Instr.significantBits] <;> decide
  rw [extractLsb'_eq_of_and_eq h hm]
  exact opcodeField_encode P i

/-- Whatever word agrees with an encoded instruction on the significant bits decodes to it: every field that the decoder of
the form reads lies under the mask, and in the encoded word it holds the operand (R103). -/
theorem decode_of_and_eq_encode {P : Params} {ir : Word} {i : Instr} (hwf : i.WellFormed)
    (h : ir &&& i.significantBits = encode P i &&& i.significantBits) : decode P ir = i := by
  rw [decode, Opcode.ofBits_opcodeField (opcode_of_and_eq_encode h)]
  cases i <;> simp only [Instr.significantBits] at h <;>
    simp (disch := decide) only [Instr.opcode, regHi, regMid, regLo, nzpField, imm5Field, offset6Field, offset9Field,
      offset11Field, trapvect8Field, ← BitVec.getLsbD_eq_getElem, extractLsb'_of_and_eq_encode h,
      getLsbD_of_and_eq_encode h, Instr.operandBits, BitVec.extractLsb'_append_eq_of_le,
      BitVec.extractLsb'_append_eq_of_add_le, BitVec.extractLsb'_eq_self, BitVec.getLsbD_append, Nat.reduceSub,
      Nat.reduceLT, toFin_regBits, if_true]
  case addReg | addImm | andReg | andImm | jsr | jsrr => rfl
  case trap vector => exact if_neg (by simpa [Instr.WellFormed, Instr.wf] using hwf)

@[simp] theorem regBits_toFin (b : BitVec 3) : regBits b.toFin = b := rfl

/-- The operand fields that the decoder of the form looks at, each as its lowest bit and its length. -/
def Instr.operandFields : Instr → List (Nat × Nat)
  | .addReg .. | .andReg .. => [(9, 3), (6, 3), (5, 1), (0, 3)]
  | .addImm .. | .andImm .. => [(9, 3), (6, 3), (5, 1), (0, 5)]
  | .br .. | .ld .. | .ldi .. | .lea .. | .st .. | .sti .. => [(9, 3), (0, 9)]
  | .ldr .. | .str .. => [(9, 3), (6, 3), (0, 6)]
  | .notReg .. => [(9, 3), (6, 3)]
  | .jmp .. => [(6, 3)]
  | .jsr .. => [(11, 1), (0, 11)]
  | .jsrr .. => [(11, 1), (6, 3)]
  | .trapGetc | .trap .. => [(0, 8)]
  | .rti | .reserved => []

/-- The significant bits of a form are its opcode and these fields. -/
theorem Instr.operandFields_cover (i : Instr) : ∀ k < 16, i.significantBits.getLsbD k = true →
    ∃ f ∈ (12, 4) :: i.operandFields, f.1 ≤ k ∧ k < f.1 + f.2 := by
  cases i <;> simp only [Instr.significantBits, Instr.operandFields] <;> decide

/-- Words with the same opcode and the same operand fields of a form agree on its significant bits. -/
theorem and_eq_and_of_fields {a b : Word} {i : Instr}
    (h : ∀ f ∈ (12, 4) :: i.operandFields, a.extractLsb' f.1 f.2 = b.extractLsb' f.1 f.2) :
    a &&& i.significantBits = b &&& i.significantBits := by
  apply BitVec.eq_of_getLsbD_eq
  intro k hk
  rw [BitVec.getLsbD_and, BitVec.getLsbD_and]
  cases hm : i.significantBits.getLsbD k
  · rw [Bool.and_false, Bool.and_false]
  · obtain ⟨f, hf, hlow, hhigh⟩ := i.operandFields_cover k hk hm
    obtain ⟨j, rfl⟩ := Nat.exists_eq_add_of_le hlow
    have hj : j < f.2 := by omega
    have hbit := congrArg (·.getLsbD j) (h f hf)
    simp only [BitVec.getLsbD_extractLsb', hj, decide_true, Bool.true_and] at hbit
    rw [hbit]

/-- Only the vectored TRAP could decode to an ill-formed term, and its vector is not `GETC_VECTOR` (R102, R180). -/
theorem decode_wellFormed (P : Params) (ir : Word) : (decode P ir).WellFormed := by
  unfold decode
  cases Opcode.ofBits P (opcodeField ir)
  case trap =>
    dsimp only
    split
    · rfl
    next hvector => simpa [Instr.WellFormed, Instr.wf] using hvector
  case add | and | jsr => dsimp only; split <;> rfl
  all_goals rfl

/-- The opcode of a decoded word is the one that its top four bits select (R100). -/
theorem opcode_decode (P : Params) (ir : Word) : (decode P ir).opcode = Opcode.ofBits P (opcodeField ir) := by
  unfold decode
  cases Opcode.ofBits P (opcodeField ir)
  case add | and | jsr | trap => dsimp only; split <;> rfl
  all_goals rfl

/-- A field of one bit. -/
theorem extractLsb'_one_of_getLsbD {w : Word} {k : Nat} {b : Bool} (h : w.getLsbD k = b) :
    w.extractLsb' k 1 = BitVec.ofBool b := by
  apply BitVec.eq_of_getLsbD_eq
  intro j hj
  obtain rfl : j = 0 := by omega
  simp [h]

/-- The fields of a decoded word stand in its operands' bits as they stand in the word. -/
theorem operandBits_decode (P : Params) (ir : Word) : ∀ f ∈ (decode P ir).operandFields,
    (decode P ir).operandBits.extractLsb' f.1 f.2 = ir.extractLsb' f.1 f.2 := by
  unfold decode
  cases Opcode.ofBits P (opcodeField ir) <;> (dsimp only; try split) <;>
    simp (disch := decide) only [Instr.operandFields, Instr.operandBits, regHi, regMid, regLo, nzpField, imm5Field,
      offset6Field, offset9Field, offset11Field, trapvect8Field, regBits_toFin, BitVec.extractLsb'_append_eq_of_le,
      BitVec.extractLsb'_append_eq_of_add_le, BitVec.extractLsb'_eq_self, List.forall_mem_cons, List.not_mem_nil,
      Nat.reduceSub, true_and, and_true, implies_true, false_implies]
  case add.isTrue hbit | and.isTrue hbit | jsr.isTrue hbit => exact (extractLsb'_one_of_getLsbD hbit).symm
  case add.isFalse hbit | and.isFalse hbit | jsr.isFalse hbit =>
    exact (extractLsb'_one_of_getLsbD (Bool.eq_false_of_not_eq_true hbit)).symm
  case trap.isTrue hvector => exact hvector.symm

/-- The opcode of a decoded word, encoded again, is the one in the word. -/
theorem opcodeField_encode_decode (P : Params) (ir : Word) : opcodeField (encode P (decode P ir)) = opcodeField ir := by
  rw [opcodeField_encode, opcode_decode, Opcode.bits_ofBits]

/-- Every operand field is a field of the low twelve bits. -/
theorem Instr.operandFields_low (i : Instr) : ∀ f ∈ i.operandFields, f.1 + f.2 ≤ 12 := by
  cases i <;> simp only [Instr.operandFields] <;> decide

/-- Encoding a decoded word gives the word back on its significant bits (R103). -/
theorem encode_decode_and (P : Params) (ir : Word) :
    encode P (decode P ir) &&& (decode P ir).significantBits = ir &&& (decode P ir).significantBits := by
  refine and_eq_and_of_fields (List.forall_mem_cons.2 ⟨opcodeField_encode_decode P ir, fun f hf => ?_⟩)
  rw [extractLsb'_encode P _ (Instr.operandFields_low _ f hf), operandBits_decode P ir f hf]

/-! ## The round trips -/

/-- Settles O2: an encoded word agrees with itself, in particular on the significant bits. -/
theorem decodeOfEncode : Obligations.DecodeOfEncode :=
  fun _ _ hwf => decode_of_and_eq_encode hwf rfl

/-- Settles O3: `decode_wellFormed`, and the fields of the decoded form by `encode_decode_and`. -/
theorem encodeOfDecode : Obligations.EncodeOfDecode :=
  fun P ir => ⟨decode_wellFormed P ir, encode_decode_and P ir⟩

/-- Settles O4: both words agree on the significant bits with what the first one's decoding encodes to. -/
theorem ignoredBitsTakeNoPart : Obligations.IgnoredBitsTakeNoPart :=
  fun P ir _ h => decode_of_and_eq_encode (decode_wellFormed P ir) (h.trans (encode_decode_and P ir).symm)

/-- No stream of two bytes or more is rejected (R102). -/
theorem decodeBytes_eq_error_iff (P : Params) (bs : List Byte) :
    decodeBytes P bs = .error .truncated ↔ bs.length < 2 := by
  match bs with
  | [] | [_] => exact iff_of_true rfl (by simp)
  | _ :: _ :: rest => exact iff_of_false nofun (by rw [List.length_cons, List.length_cons]; omega)

/-- Settles O5: by the length of the stream, and `decodeOfEncode` on the word of the first two bytes. -/
theorem byteStreamsDecode : Obligations.ByteStreamsDecode := by
  refine fun P => ⟨decodeBytes_eq_error_iff P, fun hi lo rest => ⟨_, toNat_wordOfBytes hi lo, rfl⟩, fun i rest hwf => ?_⟩
  have hword : wordOfBytes (hiByte (encode P i)) (loByte (encode P i)) = encode P i :=
    Machine.wordOfBytes_hiByte_loByte (encode P i)
  show Except.ok (decode P (wordOfBytes _ _), rest) = _
  rw [hword, decodeOfEncode P i hwf]

/-- Settles O1: each word by evaluating the decoder under the default opcode numbers. -/
theorem specWordsDecode : Obligations.SpecWordsDecode := by
  unfold Obligations.SpecWordsDecode
  decide

end Sys2Proof
end

section
/-! PROOFS. What one instruction can do, said once (40_instruction_cycle.md R126): the five kinds of effect, and from them what
every step keeps, what it may change, and which words make it fault. -/

namespace Sys2Proof.Machine

/-! ## Reads (20_memory.md R54) -/

/-- Reads alone lead from `s` to `u`: bytes may have been taken from the front of `cin`, nothing else has changed. -/
def ReadsLeave (s u : State) : Prop := ∃ rest, rest <:+ s.cin ∧ u = { s with cin := rest }

theorem ReadsLeave.refl (s : State) : ReadsLeave s s := ⟨s.cin, List.suffix_rfl, rfl⟩

theorem ReadsLeave.memRead {s u : State} (h : ReadsLeave s u) (a : Word) : ReadsLeave s (u.memRead a).2 := by
  obtain ⟨rest, hrest, rfl⟩ := h
  exact ⟨_, (State.memRead_cin_suffix _ a).trans hrest, State.memRead_frame _ a⟩

/-! ## The five kinds of effect -/

/-- Everything that one instruction can do from `s`. -/
inductive Effect (i : Instr) (s : State) : State → Prop where
  /-- It delivers a result into its destination register and sets the flags (R29). -/
  | result {u : State} {dr : Reg} {v : Word} (hu : ReadsLeave s u) (hset : i.setsFlags = true)
      (hdr : i.writtenReg = some dr) : Effect i s (u.writeResult dr v)
  /-- It stores a word at its store address (R61). -/
  | store {u : State} {a v : Word} (hu : ReadsLeave s u) (ha : i.storeAddress s = some a) : Effect i s (u.memWrite a v)
  /-- It raises the one exception (R190). -/
  | raised (hi : i = .rti ∨ i = .reserved) : Effect i s s.raiseUnimplementedOpcode
  /-- It moves `pc`: BR, JMP, and the hold of TRAP 0x20 (R170, R171, R129). -/
  | jump {target : Word} (hi : i.movesPc = true) : Effect i s (s.setPc target)
  /-- It writes one register without the flags, and may move `pc`: JSR, JSRR, TRAP and TRAP 0x20 (R172, R173, R196, R182). -/
  | link {u : State} {r : Reg} {v target : Word} (hu : ReadsLeave s u) (hi : i.movesPc = true)
      (hr : i.writtenReg = some r) : Effect i s ((u.setReg r v).setPc target)

theorem execTrapGetc_effect (s : State) : ∃ t, exec .trapGetc s = .next t ∧ Effect .trapGetc s t := by
  rcases hcin : s.cin with _ | ⟨b, rest⟩
  · exact ⟨_, execTrapGetc_nil hcin, .jump rfl⟩
  · exact ⟨_, execTrapGetc_cons hcin, .link (target := s.pc) ⟨rest, hcin ▸ List.suffix_cons b rest, rfl⟩ rfl rfl⟩

/-- Every instruction answers a next state from every state, and its effect is one of the five. -/
theorem exec_effect (i : Instr) (s : State) : ∃ t, exec i s = .next t ∧ Effect i s t := by
  have hs := ReadsLeave.refl s
  cases i with
  | addReg | addImm | andReg | andImm | notReg | lea => exact ⟨_, rfl, .result hs rfl rfl⟩
  | ld | ldr => exact ⟨_, rfl, .result (hs.memRead _) rfl rfl⟩
  | ldi => exact ⟨_, rfl, .result ((hs.memRead _).memRead _) rfl rfl⟩
  | st | str => exact ⟨_, rfl, .store hs rfl⟩
  | sti => exact ⟨_, rfl, .store (hs.memRead _) rfl⟩
  | rti => exact ⟨_, rfl, .raised (.inl rfl)⟩
  | reserved => exact ⟨_, rfl, .raised (.inr rfl)⟩
  | br nzp offset9 =>
    refine ⟨_, rfl, ?_⟩
    split
    · exact .jump rfl
    · exact .jump (target := s.pc) rfl
  | jmp => exact ⟨_, rfl, .jump rfl⟩
  | jsr | jsrr => exact ⟨_, rfl, .link hs rfl rfl⟩
  | trap => exact ⟨_, rfl, .link (hs.memRead _) rfl rfl⟩
  | trapGetc => exact execTrapGetc_effect s

theorem exec_next_effect {i : Instr} {s t : State} (h : exec i s = .next t) : Effect i s t := by
  obtain ⟨t', ht', heffect⟩ := exec_effect i s
  rw [ht'] at h
  cases h
  exact heffect

/-- A step that answers a next state: the effect of the instruction fetched after the environment's moves. -/
theorem step_effect {s t : State} (h : step s = .next t) :
    Effect s.environmentMove.nextInstr s.environmentMove.fetch.2 t :=
  exec_next_effect (step_next h).2

/-! ## What every effect leaves alone -/

section
variable {i : Instr} {s t : State}

theorem Effect.params (h : Effect i s t) : t.params = s.params := by
  cases h with
  | result hu | store hu | link hu => obtain ⟨rest, -, rfl⟩ := hu; simp
  | raised | jump => rfl

theorem Effect.arrivals (h : Effect i s t) : t.arrivals = s.arrivals := by
  cases h with
  | result hu | store hu | link hu => obtain ⟨rest, -, rfl⟩ := hu; simp
  | raised | jump => rfl

theorem Effect.cin_suffix (h : Effect i s t) : t.cin <:+ s.cin := by
  cases h with
  | result hu | store hu | link hu => obtain ⟨rest, hrest, rfl⟩ := hu; simpa
  | raised | jump => exact List.suffix_rfl

theorem Effect.fault (h : Effect i s t) (hi : ¬ (i = .rti ∨ i = .reserved)) : t.fault = s.fault := by
  cases h with
  | result hu | store hu | link hu => obtain ⟨rest, -, rfl⟩ := hu; simp
  | raised hraise => exact absurd hraise hi
  | jump => rfl

/-- Only the destination register of R22's table changes. -/
theorem Effect.reg (h : Effect i s t) {r : Reg} (hr : i.writtenReg ≠ some r) : t.reg r = s.reg r := by
  cases h with
  | result hu _ hdr =>
    obtain ⟨rest, -, rfl⟩ := hu
    exact State.reg_writeResult_other _ _ fun e => hr (e ▸ hdr)
  | link hu _ hdr =>
    obtain ⟨rest, -, rfl⟩ := hu
    exact State.reg_setReg_other _ _ fun e => hr (e ▸ hdr)
  | store hu => obtain ⟨rest, -, rfl⟩ := hu; exact State.memWrite_reg ..
  | raised | jump => rfl

theorem Effect.pc (h : Effect i s t) (hi : i.movesPc = false) : t.pc = s.pc := by
  cases h with
  | result hu | store hu => obtain ⟨rest, -, rfl⟩ := hu; simp
  | raised => rfl
  | jump hmoves | link _ hmoves => simp [hi] at hmoves

/-- Output grows by one byte at a store to `DDR_ADDR` and not otherwise (R61). -/
theorem Effect.cout (h : Effect i s t) :
    t.cout = s.cout ∨ (i.storeAddress s = some s.params.ddrAddr ∧ ∃ b, t.cout = s.cout ++ [b]) := by
  cases h with
  | @store _ a v hu ha =>
    obtain ⟨rest, -, rfl⟩ := hu
    rcases State.memWrite_cases { s with cin := rest } a v with ⟨-, -, hw⟩ | ⟨rfl, hw⟩ | ⟨-, hw⟩ <;> rw [hw]
    · exact .inl rfl
    · exact .inr ⟨ha, _, rfl⟩
    · exact .inl rfl
  | result hu | link hu => obtain ⟨rest, -, rfl⟩ := hu; exact .inl rfl
  | raised | jump => exact .inl rfl

/-- The array changes by a store alone. -/
theorem Effect.mem (h : Effect i s t) :
    t.mem = s.mem ∨ ∃ a v, i.storeAddress s = some a ∧ t.mem = (s.memWrite a v).mem := by
  cases h with
  | @store _ a v hu ha =>
    obtain ⟨rest, -, rfl⟩ := hu
    exact .inr ⟨a, v, ha, by simp only [State.memWrite]; split_ifs <;> rfl⟩
  | result hu | link hu => obtain ⟨rest, -, rfl⟩ := hu; exact .inl rfl
  | raised | jump => exact .inl rfl

/-- A write changes no byte cell but the two of the plain cell that it addresses (R61, log 1). -/
theorem State.memWrite_rawByte_other (s : State) {a : Word} (v : Word) {k : Nat}
    (hk : isDeviceAddr s.params a = false → k ≠ 2 * a.toNat ∧ k ≠ 2 * a.toNat + 1) :
    (s.memWrite a v).rawByte k = s.rawByte k := by
  rcases s.memWrite_cases a v with ⟨-, -, hw⟩ | ⟨-, hw⟩ | ⟨hplain, hw⟩ <;> rw [hw]
  · rfl
  · exact s.rawWrite_rawByte_other v (hk hplain).1 (hk hplain).2

/-- No byte cell changes but the two of the plain cell that the instruction stores to. -/
theorem Effect.rawByte (h : Effect i s t) {k : Nat} (hk : ∀ a, i.storeAddress s = some a →
    isDeviceAddr s.params a = false → k ≠ 2 * a.toNat ∧ k ≠ 2 * a.toNat + 1) : t.rawByte k = s.rawByte k := by
  rcases h.mem with hmem | ⟨a, v, ha, hmem⟩
  · exact State.rawByte_congr hmem h.params k
  · rw [State.rawByte_congr hmem (h.params.trans (s.memWrite_params a v).symm)]
    exact s.memWrite_rawByte_other v (hk a ha)

/-- No cell at a device address changes (R32). -/
theorem Effect.rawRead_device (h : Effect i s t) {a : Word} (ha : isDeviceAddr s.params a = true) :
    t.rawRead a = s.rawRead a := by
  rcases h.mem with hmem | ⟨b, v, -, hmem⟩
  · exact State.rawRead_congr hmem h.params a
  · rw [State.rawRead_congr hmem (h.params.trans (s.memWrite_params b v).symm), State.memWrite_rawRead]
    exact if_neg fun ⟨hab, hb⟩ => by simp [← hab, ha] at hb

theorem Effect.memWf (h : Effect i s t) (hs : s.memWf = true) : t.memWf = true := by
  rcases h.mem with hmem | ⟨a, v, -, hmem⟩
  · rwa [State.memWf_congr hmem h.params]
  · rw [State.memWf_congr hmem (h.params.trans (s.memWrite_params a v).symm)]
    exact State.memWrite_memWf hs a v

end

/-! ## The invariant -/

/-- `setcc` on a status register with zeros above bit 2 leaves the flags of the value alone. -/
theorem setccPsr_setWidth (P : Params) (f : BitVec 3) (v : Word) :
    setccPsr P (f.setWidth 16) v = (flagsOf P v).setWidth 16 := by
  have hclear : ∀ f : BitVec 3, f.setWidth 16 &&& (0xFFF8 : Word) = 0#16 := by decide
  rw [setccPsr, hclear, BitVec.zero_or]

/-- After `setcc` on a legal status register exactly one flag is set again (R27, R28). -/
theorem State.PsrLegal.setcc {s : State} (h : s.PsrLegal) (v : Word) : (s.setcc v).PsrLegal := by
  obtain ⟨f, hf⟩ : ∃ f : BitVec 3, s.psr = f.setWidth 16 := by
    rcases h with h | h | h <;> exact ⟨_, h⟩
  rw [State.PsrLegal, State.setcc_psr, State.setcc_params, hf, setccPsr_setWidth]
  rcases flagsOf_cases s.params v with ⟨-, hv⟩ | ⟨-, hv⟩ | ⟨-, -, hv⟩ <;> rw [hv]
  · exact .inl rfl
  · exact .inr (.inl rfl)
  · exact .inr (.inr rfl)

theorem Effect.psrLegal {i : Instr} {s t : State} (h : Effect i s t) (hs : s.PsrLegal) : t.PsrLegal := by
  cases h with
  | @result _ dr v hu =>
    obtain ⟨rest, -, rfl⟩ := hu
    exact State.PsrLegal.setcc (s := State.setReg _ dr v) hs v
  | store hu => obtain ⟨rest, -, rfl⟩ := hu; simpa [State.PsrLegal] using hs
  | link hu => obtain ⟨rest, -, rfl⟩ := hu; exact hs
  | raised | jump => exact hs

theorem Effect.inv {i : Instr} {s t : State} (h : Effect i s t) (hs : s.Inv) : t.Inv :=
  ⟨h.psrLegal hs.1, h.memWf hs.2⟩

/-- The environment's moves and the fetch keep the invariant: both leave `psr` and memory alone. -/
theorem State.inv_fetch_environmentMove {s : State} (h : s.Inv) : s.environmentMove.fetch.2.Inv := by
  simpa [State.Inv, State.PsrLegal] using h

/-- Settles O40: the invariant through the environment's moves, the fetch and the effect of the instruction. -/
theorem stepKeepsInvariant : Obligations.StepKeepsInvariant :=
  fun _ _ hs h => (step_effect h).inv (State.inv_fetch_environmentMove hs)

/-! ## The frames of a step -/

/-- Settles O46: the register frame of the effect; the fetch touches no register. -/
theorem onlyDestinationRegisterChanges : Obligations.OnlyDestinationRegisterChanges := by
  intro s t h r hr
  rw [(step_effect h).reg hr, State.fetch_reg, State.reg_environmentMove]

/-- Settles O47: the memory frames of the effect; the fetch touches no cell. -/
theorem onlyStoredCellChanges : Obligations.OnlyStoredCellChanges := by
  intro s t h
  have hmem : s.environmentMove.fetch.2.mem = s.mem := State.fetch_mem _
  have hparams : s.environmentMove.fetch.2.params = s.params := State.fetch_params _
  refine ⟨fun k hk => ?_, fun a ha => ?_⟩
  · rw [(step_effect h).rawByte (hparams ▸ hk), State.rawByte_congr hmem hparams]
  · rw [(step_effect h).rawRead_device (hparams ▸ ha), State.rawRead_congr hmem hparams]

/-- Settles O49: `pc` is where the fetch left it. -/
theorem pcAdvancesByOne : Obligations.PcAdvancesByOne := by
  intro s t h hi
  rw [(step_effect h).pc hi, State.fetch_pc, State.environmentMove_pc]
  exact BitVec.toNat_add s.pc 1

/-- Settles O50: the output of the effect; the fetch emits nothing. -/
theorem outputGrowsOnlyByDdrStores : Obligations.OutputGrowsOnlyByDdrStores := by
  intro s t h
  have hcout := (step_effect h).cout
  rwa [State.fetch_cout, State.fetch_params] at hcout

/-- Settles O51: the instruction, the fetch and the environment's moves, each a suffix of the one before. -/
theorem inputIsTakenFromFront : Obligations.InputIsTakenFromFront := by
  intro s t h
  refine ⟨(step_effect h).cin_suffix.trans s.environmentMove.fetch_cin_suffix, ?_⟩
  rw [(step_effect h).arrivals, State.fetch_arrivals, State.environmentMove_arrivals]

/-! ## Which words fault (30_encoding.md R104, 60_exceptions.md R191) -/

theorem decode_eq_rti_iff (P : Params) (ir : Word) : decode P ir = .rti ↔ ir.extractLsb' 12 4 = 0b1000 := by
  refine ⟨fun h => ?_, decode_rti⟩
  have hop := opcode_decode P ir
  rw [h] at hop
  exact (Opcode.ofBits_eq_iff P _ .rti).1 hop.symm

theorem decode_eq_reserved_iff (P : Params) (ir : Word) : decode P ir = .reserved ↔ ir.extractLsb' 12 4 = 0b1101 := by
  refine ⟨fun h => ?_, decode_reserved⟩
  have hop := opcode_decode P ir
  rw [h] at hop
  exact (Opcode.ofBits_eq_iff P _ .reserved).1 hop.symm

/-- The latch is set after an instruction that found it clear exactly if that is RTI or RESERVED. -/
theorem Effect.fault_ne_none_iff {i : Instr} {s t : State} (h : Effect i s t) (hs : s.fault = none) :
    t.fault ≠ none ↔ i = .rti ∨ i = .reserved := by
  refine ⟨fun hne => ?_, fun hi => ?_⟩
  · by_contra hi
    exact hne ((h.fault hi).trans hs)
  · cases h with
    | raised => exact Option.some_ne_none _
    | result _ hset | store _ hset | jump hset | link _ hset => rcases hi with rfl | rfl <;> cases hset

/-- Settles O44: the latch through the step, and the words of the two faulting opcodes. -/
theorem onlyFaultingOpcodesSetLatch : Obligations.OnlyFaultingOpcodesSetLatch := by
  intro s t h
  have hclear : s.environmentMove.fetch.2.fault = none := (State.fetch_fault _).trans (step_next h).1.1
  rw [(step_effect h).fault_ne_none_iff hclear, State.nextInstr, decode_eq_rti_iff, decode_eq_reserved_iff]
  rfl

/-- The words of one opcode are a range of 4096 numbers. -/
theorem extractLsb'_opcode_eq_iff (ir : Word) (n : BitVec 4) :
    ir.extractLsb' 12 4 = n ↔ n.toNat * 4096 ≤ ir.toNat ∧ ir.toNat ≤ n.toNat * 4096 + 4095 := by
  have hlt := ir.isLt
  rw [← BitVec.toNat_inj, BitVec.extractLsb'_toNat, Nat.shiftRight_eq_div_pow]
  omega

/-- Settles O6: `exec` always answers a next state; its latch by `Effect.fault_ne_none_iff`, the two opcodes as ranges. -/
theorem exactlyRtiAndReservedWordsFault : Obligations.ExactlyRtiAndReservedWordsFault := by
  intro P ir s hs
  obtain ⟨t, ht, heffect⟩ := exec_effect (decode P ir) s
  have hiff := heffect.fault_ne_none_iff hs
  rw [decode_eq_rti_iff, decode_eq_reserved_iff, extractLsb'_opcode_eq_iff, extractLsb'_opcode_eq_iff] at hiff
  refine ⟨t, ht, fun hrange => ?_, fun hrange => ?_⟩
  · obtain ⟨⟨⟩, hcause⟩ := Option.ne_none_iff_exists'.1 (hiff.2 hrange)
    exact hcause
  · by_contra hne
    exact hrange (hiff.1 hne)

end Sys2Proof.Machine
end

section
/-! PROOFS. The arbiter address by address (20_memory.md R54, R61): what a read and a write of each device register and of a
plain cell do, and a store followed by a load (R159). -/

namespace Sys2Proof.Machine

/-! ## `MemRead` at the device registers (R54) -/

theorem State.memRead_kbsr (s : State) :
    s.memRead s.params.kbsrAddr = (if s.cin = [] then 0 else s.params.readyMask, s) := by
  simp [State.memRead]

theorem State.memRead_kbdr_nil {s : State} (h : s.cin = []) : s.memRead s.params.kbdrAddr = (0, s) := by
  obtain ⟨⟨hne, -⟩, -⟩ := special_addrs_differ s.params
  simp [State.memRead, hne.symm, h]

theorem State.memRead_kbdr_cons {s : State} {b : Byte} {rest : List Byte} (h : s.cin = b :: rest) :
    s.memRead s.params.kbdrAddr = (charWord b, { s with cin := rest }) := by
  obtain ⟨⟨hne, -⟩, -⟩ := special_addrs_differ s.params
  simp [State.memRead, hne.symm, h]

theorem State.memRead_dsr (s : State) : s.memRead s.params.dsrAddr = (s.params.readyMask, s) := by
  obtain ⟨⟨-, h1, -⟩, ⟨h2, -⟩, -⟩ := special_addrs_differ s.params
  simp [State.memRead, h1.symm, h2.symm]

theorem State.memRead_ddr (s : State) : s.memRead s.params.ddrAddr = (0, s) := by
  obtain ⟨⟨-, -, h1, -⟩, ⟨-, h2, -⟩, ⟨h3, -⟩, -⟩ := special_addrs_differ s.params
  simp [State.memRead, h1.symm, h2.symm, h3.symm]

/-- A character keeps its number (D9). -/
theorem toNat_charWord (b : Byte) : (charWord b).toNat = b.toNat := BitVec.toNat_setWidth_of_le (by decide)

/-- Settles O11: the five rules, one for each device register and one for the plain cells. -/
theorem memReadRoutesByAddress : Obligations.MemReadRoutesByAddress :=
  fun s => ⟨s.memRead_kbsr, State.memRead_kbdr_nil, fun b _ h => ⟨charWord b, toNat_charWord b, State.memRead_kbdr_cons h⟩,
    s.memRead_dsr, s.memRead_ddr,
    fun a h1 h2 h3 h4 => State.memRead_plain ((isDeviceAddr_eq_false_iff _ a).2 ⟨h1, h2, h3, h4⟩)⟩

/-! ## `MemWrite` at the device registers (R61) -/

theorem State.memWrite_readOnly {s : State} {a : Word} (v : Word)
    (h : a = s.params.kbsrAddr ∨ a = s.params.kbdrAddr ∨ a = s.params.dsrAddr) : s.memWrite a v = s :=
  if_pos h

theorem State.memWrite_ddr (s : State) (v : Word) :
    s.memWrite s.params.ddrAddr v = { s with cout := s.cout ++ [emittedByte v] } := by
  obtain ⟨⟨-, -, h1, -⟩, ⟨-, h2, -⟩, ⟨h3, -⟩, -⟩ := special_addrs_differ s.params
  simp [State.memWrite, h1.symm, h2.symm, h3.symm]

/-- DDR emits the low byte (D10). -/
theorem toNat_emittedByte (v : Word) : (emittedByte v).toNat = v.toNat % 256 := by
  simp [emittedByte, loByte]

/-- Settles O12: nothing at the three read-only registers, one byte at DDR, a raw write elsewhere. -/
theorem memWriteRoutesByAddress : Obligations.MemWriteRoutesByAddress := by
  refine fun s v => ⟨State.memWrite_readOnly v (.inl rfl), State.memWrite_readOnly v (.inr (.inl rfl)),
    State.memWrite_readOnly v (.inr (.inr rfl)), ⟨_, toNat_emittedByte v, s.memWrite_ddr v⟩, fun a h1 h2 h3 h4 => ?_⟩
  rw [State.memWrite_plain v ((isDeviceAddr_eq_false_iff _ a).2 ⟨h1, h2, h3, h4⟩)]
  exact ⟨s.rawWrite_rawRead_same a v, fun _ => s.rawWrite_rawRead_other v, rfl⟩

/-! ## A store and a load of one address (R159) -/

/-- A write to a device register does not change what a read of it returns. -/
theorem State.memRead_memWrite_device {s : State} {a : Word} (v : Word) (h : isDeviceAddr s.params a = true) :
    ((s.memWrite a v).memRead a).1 = (s.memRead a).1 := by
  rcases s.memWrite_cases a v with ⟨-, -, hw⟩ | ⟨rfl, hw⟩ | ⟨hplain, -⟩
  · rw [hw]
  · rw [hw, s.memRead_ddr]
    exact (congrArg Prod.fst (State.memRead_ddr { s with cout := _ })).trans rfl
  · simp [h] at hplain

/-- A read of a plain cell returns the word last written. -/
theorem State.memRead_memWrite_plain {s : State} {a : Word} (v : Word) (h : isDeviceAddr s.params a = false) :
    ((s.memWrite a v).memRead a).1 = v := by
  rw [State.memRead_plain (by rwa [State.memWrite_params]), State.memWrite_rawRead, if_pos ⟨rfl, h⟩]

/-- Settles O13: the load reads its own address, which the store has left where it was, through `memRead_memWrite_plain` or
`memRead_memWrite_device`. -/
theorem storeThenLoadSameAddress : Obligations.StoreThenLoadSameAddress := by
  intro s sr dr base offset6 ea
  have hea : (s.memWrite ea (s.reg sr)).basePlusOffset base offset6 = ea := by
    rw [State.basePlusOffset, State.memWrite_reg]
    rfl
  refine ⟨_, _, rfl, rfl, fun hplain => ?_, fun hdevice => ?_⟩ <;> rw [State.reg_writeResult_same, hea]
  · exact State.memRead_memWrite_plain _ hplain
  · exact State.memRead_memWrite_device _ hdevice

end Sys2Proof.Machine
end

section
/-! PROOFS. The flags as bits of the status register: what `setcc` leaves (10_state.md R28) and what `brtest` tests (R30). -/

namespace Sys2Proof.Machine

/-! ## The flag of a value by its number -/

section
variable {P : Params} {v : Word}

theorem flagsOf_of_ge (h : 0x8000 ≤ v.toNat) : flagsOf P v = flagMask P.psrN :=
  (flagsOf_eq_iff P v).1.2 (BitVec.toInt_neg_iff.2 (by omega))

theorem flagsOf_of_zero (h : v.toNat = 0) : flagsOf P v = flagMask P.psrZ := by
  obtain rfl : v = 0 := BitVec.eq_of_toNat_eq h
  exact (flagsOf_eq_iff P 0).2.1.2 rfl

theorem flagsOf_of_pos (hpos : 1 ≤ v.toNat) (hlt : v.toNat ≤ 0x7FFF) : flagsOf P v = flagMask Config.psrP := by
  refine (flagsOf_eq_iff P v).2.2.2 ?_
  rw [BitVec.toInt_eq_toNat_of_lt (by omega)]
  omega

end

/-- If the value's flag is the one at `q`, `setcc` leaves that flag set and the other two clear. -/
theorem State.getLsbD_setcc_psr {s : State} {v : Word} {q : Fin 3} (h : flagsOf s.params v = flagMask q) (p : Fin 3) :
    (s.setcc v).psr.getLsbD p = decide (p = q) := by
  rw [State.setcc_psr, getLsbD_setccPsr, if_pos p.isLt, h, getLsbD_flagMask]
  exact decide_eq_decide.2 Fin.val_inj

theorem State.extractLsb'_setcc_psr_flags (s : State) (v : Word) :
    (s.setcc v).psr.extractLsb' 0 3 = flagsOf s.params v :=
  conditionFlags_setccPsr s.params s.psr v

/-- `setcc` preserves bits 15:3 (R28). -/
theorem State.extractLsb'_setcc_psr_high (s : State) (v : Word) :
    (s.setcc v).psr.extractLsb' 3 13 = s.psr.extractLsb' 3 13 := by
  apply BitVec.eq_of_getLsbD_eq
  intro k hk
  simp [getLsbD_setccPsr]

/-- Settles O9: the flags by the number of the value, bit by bit, and the frame of `setcc`. -/
theorem setccLeavesExactlyOneFlag : Obligations.SetccLeavesExactlyOneFlag := by
  refine fun s v => ⟨s.extractLsb'_setcc_psr_high v, fun h => State.getLsbD_setcc_psr (flagsOf_of_ge h),
    fun h => State.getLsbD_setcc_psr (flagsOf_of_zero h), fun h h' => State.getLsbD_setcc_psr (flagsOf_of_pos h h'),
    flagsFrom_setccPsr s.params s.psr v, rfl, fun hparams => ?_⟩
  rw [s.extractLsb'_setcc_psr_flags, hparams]
  exact ⟨flagsOf_of_ge, flagsOf_of_zero, flagsOf_of_pos⟩

/-! ## `brtest` (R30) -/

/-- Bit 2 of the mask tests N, bit 1 Z, bit 0 P. -/
theorem State.brtest_eq (s : State) (nzp : BitVec 3) :
    s.brtest nzp = (nzp.getLsbD 2 && s.psr.getLsbD s.params.psrN || nzp.getLsbD 1 && s.psr.getLsbD s.params.psrZ ||
      nzp.getLsbD 0 && s.psr.getLsbD Config.psrP) := by
  have hbits : ∀ a b : BitVec 3, ((a &&& b) != 0) =
      (a.getLsbD 2 && b.getLsbD 2 || a.getLsbD 1 && b.getLsbD 1 || a.getLsbD 0 && b.getLsbD 0) := by decide
  obtain ⟨hN, hZ, hP⟩ := getLsbD_nzpFlags s.params s.psr
  rw [State.brtest, hbits, hN, hZ, hP]

/-- With the default positions the mask meets `psr[2:0]` bit for bit (D5). -/
theorem State.brtest_default {s : State} {nzp : BitVec 3} (h : s.params = Params.default) :
    s.brtest nzp = true ↔ nzp &&& s.psr.extractLsb' 0 3 ≠ 0 := by
  rw [State.brtest, h, nzpFlags_default]
  exact bne_iff_ne

end Sys2Proof.Machine
end

section
/-! PROOFS. What an instruction does not depend on: the array at the four device addresses, which nothing observes
(10_state.md R32), and the status register, which BR alone reads (R30). -/

namespace Sys2Proof.Machine

/-- The state with another status register and another array. -/
def State.withPsrMem (s : State) (psr : Word) (m : Memory) : State := { s with psr := psr, mem := m }

/-- The memory `m` reads as the array of `s` does at every plain address. -/
def PlainAlike (s : State) (m : Memory) : Prop :=
  ∀ a, isDeviceAddr s.params a = false → m.readCell s.params.mcrAddr a = s.rawRead a

/-- `u` is `s` but for the status register and the array, and the array is alike at every plain address. If `KeepPsr`, the
status register is the same too; if `KeepMem`, the whole array. -/
def Twin (KeepPsr KeepMem : Prop) (s u : State) : Prop :=
  ∃ psr m, u = s.withPsrMem psr m ∧ PlainAlike s m ∧ (KeepPsr → psr = s.psr) ∧ (KeepMem → m = s.mem)

/-- The relation speaks of the parameters and the array alone. -/
theorem PlainAlike.congr {s t : State} {m : Memory} (h : PlainAlike s m) (hmem : t.mem = s.mem)
    (hparams : t.params = s.params) : PlainAlike t m := by
  intro a ha
  rw [hparams] at ha ⊢
  rw [h a ha, State.rawRead_congr hmem hparams]

/-- `MemRead` sees the waiting input and the plain cells, and takes input alone (R54). -/
theorem State.memRead_withPsrMem {s : State} {m : Memory} (h : PlainAlike s m) (psr a : Word) :
    (s.withPsrMem psr m).memRead a = ((s.memRead a).1, (s.memRead a).2.withPsrMem psr m) := by
  cases ha : isDeviceAddr s.params a
  · have hcell : (s.withPsrMem psr m).rawRead a = s.rawRead a := h a ha
    rw [State.memRead_plain ha, State.memRead_plain (s := s.withPsrMem psr m) ha, hcell]
  · rcases (isDeviceAddr_iff _ a).1 ha with rfl | rfl | rfl | rfl
    · rw [s.memRead_kbsr]
      exact (s.withPsrMem psr m).memRead_kbsr
    · rcases hcin : s.cin with _ | ⟨b, rest⟩
      · rw [State.memRead_kbdr_nil hcin]
        exact State.memRead_kbdr_nil (s := s.withPsrMem psr m) hcin
      · rw [State.memRead_kbdr_cons hcin]
        exact State.memRead_kbdr_cons (s := s.withPsrMem psr m) hcin
    · rw [s.memRead_dsr]
      exact (s.withPsrMem psr m).memRead_dsr
    · rw [s.memRead_ddr]
      exact (s.withPsrMem psr m).memRead_ddr

/-! ## The shared operations on twins -/

section
variable {KeepPsr KeepMem : Prop} {s u : State}

theorem Twin.memRead (h : Twin KeepPsr KeepMem s u) {a a' : Word} (ha : a' = a) :
    (u.memRead a').1 = (s.memRead a).1 ∧ Twin KeepPsr KeepMem (s.memRead a).2 (u.memRead a').2 := by
  obtain ⟨psr, m, rfl, hplain, hpsr, hmem⟩ := h
  rw [ha, State.memRead_withPsrMem hplain]
  exact ⟨rfl, psr, m, rfl, hplain.congr (s.memRead_mem a) (s.memRead_params a), by rwa [State.memRead_psr],
    by rwa [State.memRead_mem]⟩

theorem Twin.setPc (h : Twin KeepPsr KeepMem s u) {target target' : Word} (ht : target' = target) :
    Twin KeepPsr KeepMem (s.setPc target) (u.setPc target') := by
  obtain ⟨psr, m, rfl, hplain, hkeep⟩ := h
  exact ⟨psr, m, by rw [ht]; rfl, hplain, hkeep⟩

theorem Twin.setReg (h : Twin KeepPsr KeepMem s u) (r : Reg) {v v' : Word} (hv : v' = v) :
    Twin KeepPsr KeepMem (s.setReg r v) (u.setReg r v') := by
  obtain ⟨psr, m, rfl, hplain, hkeep⟩ := h
  exact ⟨psr, m, by rw [hv]; rfl, hplain, hkeep⟩

theorem Twin.writeResult (h : Twin KeepPsr KeepMem s u) (dr : Reg) {v v' : Word} (hv : v' = v) :
    Twin KeepPsr KeepMem (s.writeResult dr v) (u.writeResult dr v') := by
  obtain ⟨psr, m, rfl, hplain, hpsr, hmem⟩ := h
  exact ⟨setccPsr s.params psr v, m, by rw [hv]; rfl, hplain, fun hkeep => by rw [hpsr hkeep]; rfl, hmem⟩

/-- A write reaches the same cell of both arrays (R61). -/
theorem Twin.memWrite (h : Twin KeepPsr KeepMem s u) {a a' v v' : Word} (ha : a' = a) (hv : v' = v) :
    Twin KeepPsr KeepMem (s.memWrite a v) (u.memWrite a' v') := by
  obtain ⟨psr, m, rfl, hplain, hpsr, hmem⟩ := h
  subst ha hv
  rcases s.memWrite_cases a' v' with ⟨hdev, hne, hw⟩ | ⟨rfl, hw⟩ | ⟨ha, hw⟩ <;> rw [hw]
  · have hreadOnly : a' = s.params.kbsrAddr ∨ a' = s.params.kbdrAddr ∨ a' = s.params.dsrAddr := by
      have ha := (isDeviceAddr_iff _ a').1 hdev
      tauto
    exact ⟨psr, m, State.memWrite_readOnly (s := s.withPsrMem psr m) v' hreadOnly, hplain, hpsr, hmem⟩
  · exact ⟨psr, m, (s.withPsrMem psr m).memWrite_ddr v', hplain, hpsr, hmem⟩
  · refine ⟨psr, _, State.memWrite_plain (s := s.withPsrMem psr m) v' ha, fun b hb => ?_, hpsr,
      fun hkeep => by rw [hmem hkeep]; rfl⟩
    rw [State.rawWrite_rawRead, ← hplain b hb]
    exact Memory.readCell_writeCell m a' b v'

theorem Twin.fetch (h : Twin KeepPsr KeepMem s u) :
    u.fetch.1 = s.fetch.1 ∧ Twin KeepPsr KeepMem s.fetch.2 u.fetch.2 := by
  have hpc : u.pc = s.pc := by obtain ⟨psr, m, rfl, -⟩ := h; rfl
  obtain ⟨hword, hread⟩ := h.memRead hpc
  exact ⟨hword, hread.setPc (congrArg (· + 1) hpc)⟩

/-! ## One instruction on twins -/

theorem Twin.execTrapGetc (h : Twin KeepPsr KeepMem s u) :
    ∃ t t', execTrapGetc s = .next t ∧ execTrapGetc u = .next t' ∧ Twin KeepPsr KeepMem t t' := by
  obtain ⟨psr, m, rfl, hkeep⟩ := h
  rcases hcin : s.cin with _ | ⟨b, rest⟩
  · exact ⟨_, _, execTrapGetc_nil hcin, execTrapGetc_nil (s := s.withPsrMem psr m) hcin, psr, m, rfl, hkeep⟩
  · exact ⟨_, _, execTrapGetc_cons hcin, execTrapGetc_cons (s := s.withPsrMem psr m) hcin, psr, m, rfl, hkeep⟩

/-- Twins do the same, whatever the instruction but for a BR that finds another status register. -/
theorem Twin.exec (h : Twin KeepPsr KeepMem s u) {i : Instr} (hi : (∀ nzp offset9, i ≠ .br nzp offset9) ∨ KeepPsr) :
    ∃ t t', exec i s = .next t ∧ exec i u = .next t' ∧ Twin KeepPsr KeepMem t t' := by
  have htwin := h
  obtain ⟨psr, m, rfl, hplain, hpsr, hmem⟩ := h
  cases i with
  | addReg dr | addImm dr | andReg dr | andImm dr | notReg dr | lea dr =>
    exact ⟨_, _, rfl, rfl, htwin.writeResult dr rfl⟩
  | ld dr | ldr dr =>
    obtain ⟨hdata, hread⟩ := htwin.memRead rfl
    exact ⟨_, _, rfl, rfl, hread.writeResult dr hdata⟩
  | ldi dr =>
    obtain ⟨hpointer, hread⟩ := htwin.memRead rfl
    obtain ⟨hdata, hread⟩ := hread.memRead hpointer
    exact ⟨_, _, rfl, rfl, hread.writeResult dr hdata⟩
  | st | str => exact ⟨_, _, rfl, rfl, htwin.memWrite rfl rfl⟩
  | sti =>
    obtain ⟨hpointer, hread⟩ := htwin.memRead rfl
    exact ⟨_, _, rfl, rfl, hread.memWrite hpointer rfl⟩
  | rti | reserved => exact ⟨_, _, rfl, rfl, psr, m, rfl, hplain, hpsr, hmem⟩
  | jmp => exact ⟨_, _, rfl, rfl, htwin.setPc rfl⟩
  | jsr | jsrr => exact ⟨_, _, rfl, rfl, (htwin.setPc rfl).setReg linkReg rfl⟩
  | trap vector =>
    obtain ⟨hentry, hread⟩ := htwin.memRead rfl
    refine ⟨_, _, rfl, rfl, ?_⟩
    rw [State.enterTrap_eq, State.enterTrap_eq]
    exact (hread.setReg linkReg rfl).setPc hentry
  | trapGetc => exact htwin.execTrapGetc
  | br nzp offset9 =>
    obtain rfl := hpsr (hi.resolve_left fun hne => hne nzp offset9 rfl)
    refine ⟨_, _, rfl, rfl, ?_⟩
    show Twin _ _ (if s.brtest nzp then _ else _) (if s.brtest nzp then _ else _)
    split
    · exact htwin.setPc rfl
    · exact htwin

end

/-! ## The status register -/

/-- Settles O10: the test bit by bit, and an instruction other than BR on two states that differ in `psr` alone. -/
theorem branchTestComparesBitForBit : Obligations.BranchTestComparesBitForBit := by
  refine ⟨fun s nzp => ⟨?_, State.brtest_default⟩, fun i s t psr hi hexec => ?_⟩
  · rw [s.brtest_eq]
    simp only [Bool.or_eq_true, Bool.and_eq_true, or_assoc]
  · have htwin : Twin False True s { s with psr := psr } := ⟨psr, s.mem, rfl, fun _ _ => rfl, nofun, fun _ => rfl⟩
    obtain ⟨t₁, u, ht, hu, psr', m, rfl, -, -, hmem⟩ := htwin.exec (.inl hi)
    rw [hexec] at ht
    cases ht
    obtain rfl := hmem trivial
    exact ⟨psr', hu⟩

/-! ## The array at the device addresses -/

/-- States that differ in the device cells alone are the twins with one status register. -/
theorem sameButDeviceCells_iff_twin (s t : State) : SameButDeviceCells s t ↔ Twin True False s t := by
  constructor
  · rintro ⟨hreg, hpc, hpsr, hcin, hcout, hfault, harrivals, hparams, hplain⟩
    have hx : t.x = s.x := Vector.ext fun k hk => hreg ⟨k, hk⟩
    refine ⟨t.psr, t.mem, ?_, fun a ha => ?_, fun _ => hpsr, nofun⟩
    · rw [State.withPsrMem, ← hx, ← hpc, ← hcin, ← hcout, ← hfault, ← harrivals, ← hparams]
    · rw [← hplain a ha, ← hparams]
      rfl
  · rintro ⟨psr, m, rfl, hplain, hpsr, -⟩
    exact ⟨fun _ => rfl, rfl, hpsr trivial, rfl, rfl, rfl, rfl, rfl, hplain⟩

/-- The environment's moves and the run/halt test do not see the device cells either. -/
theorem Twin.environmentMove {KeepPsr KeepMem : Prop} {s u : State} (h : Twin KeepPsr KeepMem s u) :
    Twin KeepPsr KeepMem s.environmentMove u.environmentMove := by
  obtain ⟨psr, m, rfl, hkeep⟩ := h
  exact ⟨psr, m, rfl, hkeep⟩

theorem Twin.runBit {KeepPsr KeepMem : Prop} {s u : State} (h : Twin KeepPsr KeepMem s u) : u.runBit = s.runBit := by
  obtain ⟨psr, m, rfl, hplain, -⟩ := h
  exact congrArg (·.getLsbD 15) (hplain s.params.mcrAddr (isDeviceAddr_mcrAddr _))

theorem Twin.fault {KeepPsr KeepMem : Prop} {s u : State} (h : Twin KeepPsr KeepMem s u) : u.fault = s.fault := by
  obtain ⟨psr, m, rfl, -⟩ := h
  rfl

theorem Twin.params {KeepPsr KeepMem : Prop} {s u : State} (h : Twin KeepPsr KeepMem s u) : u.params = s.params := by
  obtain ⟨psr, m, rfl, -⟩ := h
  rfl

/-- Running twins step alike. -/
theorem Twin.step_running {s t : State} (h : Twin True False s t) (hs : s.Running) :
    ∃ s' t', step s = .next s' ∧ step t = .next t' ∧ Twin True False s' t' := by
  have ht : t.Running := ⟨h.fault.trans hs.1, h.runBit.trans hs.2⟩
  obtain ⟨hword, hfetch⟩ := h.environmentMove.fetch
  have hinstr : t.environmentMove.nextInstr = s.environmentMove.nextInstr := by
    rw [State.nextInstr, State.nextInstr, hword, h.environmentMove.params]
  rw [step_eq s, step_eq t, coreStep_running (s := s.environmentMove) hs, coreStep_running (s := t.environmentMove) ht,
    hinstr]
  exact hfetch.exec (.inr trivial)

/-- Settles O48: twins are faulted, final or running together, and running twins step alike. -/
theorem deviceCellsAreUnobservable : Obligations.DeviceCellsAreUnobservable := by
  intro s t h
  have htwin := (sameButDeviceCells_iff_twin s t).1 h
  have hend {f : Fault} (hs : step s = .fault f) (ht : step t = .fault f) :
      (∀ s', step s = .next s' → ∃ t', step t = .next t' ∧ SameButDeviceCells s' t') ∧
        ∀ f', step s = .fault f' → step t = .fault f' := by
    rw [hs, ht]
    exact ⟨nofun, fun _ => id⟩
  rcases s.faulted_or_final_or_running with hs | ⟨hfault, hrun⟩ | hs
  · exact hend (step_faulted hs) (step_faulted (htwin.fault.trans hs))
  · exact hend (coreStep_final (s := s.environmentMove) ⟨hfault, hrun⟩)
      (coreStep_final (s := t.environmentMove) ⟨htwin.fault.trans hfault, htwin.runBit.trans hrun⟩)
  · obtain ⟨s', t', hs', ht', hnext⟩ := htwin.step_running hs
    rw [hs', ht']
    refine ⟨fun s'' e => ?_, nofun⟩
    cases e
    exact ⟨t', rfl, (sameButDeviceCells_iff_twin s' t').2 hnext⟩

end Sys2Proof.Machine
end

section
/-! PROOFS. NOT, the loads, LEA and the stores (41_operate.md R145, 42_load_store.md R151 to R157): the encoding of each by the
word's opcode, its effect through the rules for a delivered result and for a store. -/

namespace Sys2Proof.Machine

/-! ## Results -/

/-- Settles O18: `toNat_aluNot` is the complement, `wroteResult_writeResult` the flags and the frame. -/
theorem notComplements : Obligations.NotComplements := by
  refine ⟨fun _ _ => decode_not, fun dr sr1 s => ⟨_, rfl, ?_, wroteResult_writeResult rfl dr _, rfl⟩⟩
  rw [State.reg_writeResult_same, toNat_aluNot]

/-- What a load leaves that reads `a` and delivers the word into `dr`. -/
theorem load_effect (s : State) (dr : Reg) (a : Word) :
    ((s.memRead a).2.writeResult dr (s.memRead a).1).reg dr = (s.memRead a).1 ∧
      WroteResult s ((s.memRead a).2.writeResult dr (s.memRead a).1) dr ∧
      ((s.memRead a).2.writeResult dr (s.memRead a).1).cin = (s.memRead a).2.cin :=
  ⟨State.reg_writeResult_same .., wroteResult_writeResult (s.memRead_frame a) dr _, State.writeResult_cin ..⟩

/-- Settles O19: `load_effect` at the PC-relative address. -/
theorem loadPcRelative : Obligations.LoadPcRelative :=
  ⟨fun _ _ => decode_ld, fun dr offset9 s =>
    ⟨s.pcRelative offset9, _, s.toNat_pcRelative (by decide) offset9, rfl, load_effect s dr _⟩⟩

/-- Settles O21: `load_effect` at the base + offset address. -/
theorem loadBaseOffset : Obligations.LoadBaseOffset :=
  ⟨fun _ _ => decode_ldr, fun dr baseR offset6 s =>
    ⟨s.basePlusOffset baseR offset6, _, s.toNat_basePlusOffset baseR offset6, rfl, load_effect s dr _⟩⟩

/-- Settles O20: the data read starts from the state that the pointer read leaves; the two together take at most console
input. -/
theorem loadIndirect : Obligations.LoadIndirect :=
  ⟨fun _ _ => decode_ldi, fun dr offset9 s =>
    ⟨s.pcRelative offset9, _, s.toNat_pcRelative (by decide) offset9, rfl, State.reg_writeResult_same ..,
      wroteResult_writeResult (s.memRead_memRead_frame _ _) dr _, State.writeResult_cin ..⟩⟩

/-- Settles O22: the address is the result, and nothing is read. -/
theorem loadEffectiveAddress : Obligations.LoadEffectiveAddress := by
  refine ⟨fun _ _ => decode_lea, fun dr offset9 s => ⟨_, rfl, ?_, wroteResult_writeResult rfl dr _, rfl⟩⟩
  rw [State.reg_writeResult_same, s.toNat_pcRelative (by decide)]

/-! ## Stores -/

/-- A write of `v` at `ea`, from a state `u` in which reads have at most taken console input since `s`, leaves `v` stored
there. -/
theorem storedAt_memWrite {s u : State} (hu : u = { s with cin := u.cin }) (ea v : Word) :
    StoredAt s (u.memWrite ea v) ea v := by
  generalize u.cin = rest at hu
  subst hu
  refine ⟨?_, State.memWrite_reg _ ea v, State.memWrite_psr .., State.memWrite_pc .., State.memWrite_fault ..,
    State.memWrite_arrivals .., State.memWrite_params ..⟩
  split_ifs with hddr hreadOnly
  · subst hddr
    rw [State.memWrite_ddr { s with cin := rest } v]
    exact ⟨rfl, rfl⟩
  · rw [State.memWrite_readOnly (s := { s with cin := rest }) v hreadOnly]
    exact ⟨rfl, rfl⟩
  · have hplain : isDeviceAddr s.params ea = false := by
      rw [isDeviceAddr_eq_false_iff]
      tauto
    rw [State.memWrite_plain (s := { s with cin := rest }) v hplain]
    exact ⟨State.rawWrite_rawRead_same _ ea v, fun a ha => State.rawWrite_rawRead_other _ v ha, rfl⟩

/-- Settles O23: `storedAt_memWrite` at the PC-relative address. -/
theorem storePcRelative : Obligations.StorePcRelative :=
  ⟨fun _ _ => decode_st, fun _ _ _ => ⟨_, rfl, storedAt_memWrite rfl _ _, State.memWrite_cin ..⟩⟩

/-- Settles O24: `storedAt_memWrite` at the pointer, after the read that fetched it. -/
theorem storeIndirect : Obligations.StoreIndirect :=
  ⟨fun _ _ => decode_sti, fun _ _ s => ⟨_, rfl, storedAt_memWrite (s.memRead_frame _) _ _, State.memWrite_cin ..⟩⟩

/-- Settles O25: `storedAt_memWrite` at the base + offset address. -/
theorem storeBaseOffset : Obligations.StoreBaseOffset :=
  ⟨fun _ _ => decode_str, fun _ _ _ _ => ⟨_, rfl, storedAt_memWrite rfl _ _, State.memWrite_cin ..⟩⟩

end Sys2Proof.Machine
end

section
/-! PROOFS. Control transfer and TRAP (43_control.md R170 to R173, 44_trap_system.md R181, R182): the encoding of each, the
target, the link register, and what stays. -/

namespace Sys2Proof.Machine

/-! ## BR and JMP -/

theorem exec_br_of_brtest {s : State} {nzp : BitVec 3} (h : s.brtest nzp = true) (offset9 : BitVec 9) :
    exec (.br nzp offset9) s = .next (s.setPc (s.pcRelative offset9)) :=
  congrArg Host.Outcome.next (if_pos h)

theorem exec_br_of_not_brtest {s : State} {nzp : BitVec 3} (h : s.brtest nzp = false) (offset9 : BitVec 9) :
    exec (.br nzp offset9) s = .next s :=
  congrArg Host.Outcome.next (if_neg (by simp [h]))

/-- Settles O26: `brtest` flag by flag, taken and not taken. -/
theorem branchOnFlags : Obligations.BranchOnFlags := by
  refine ⟨fun _ _ => decode_br, fun nzp offset9 s => ?_⟩
  rw [← s.brtest_eq]
  cases htest : s.brtest nzp
  · exact ⟨s.pc, exec_br_of_not_brtest htest offset9, nofun, fun _ => rfl⟩
  · exact ⟨s.pcRelative offset9, exec_br_of_brtest htest offset9, fun _ => s.toNat_pcRelative (by decide) offset9, nofun⟩

/-- The status register that holds one flag alone has its bit set. -/
theorem getLsbD_setWidth_flagMask (p : Fin 3) : ((flagMask p).setWidth 16 : Word).getLsbD p = true := by
  revert p
  decide

/-- In a legal status register some flag is set (R27). -/
theorem State.brtest_all {s : State} (h : s.PsrLegal) : s.brtest 0b111 = true := by
  rw [s.brtest_eq]
  rcases h with h | h | h <;> rw [h, getLsbD_setWidth_flagMask] <;> simp

/-- Settles O27: the mask of all flags tests one that is set, the empty mask tests none. -/
theorem branchOnAllOrNone : Obligations.BranchOnAllOrNone := fun s offset9 =>
  ⟨fun h => exec_br_of_brtest (State.brtest_all h) offset9, exec_br_of_not_brtest (by rw [s.brtest_eq]; simp) offset9⟩

/-- Settles O28: the opcode selects JMP by `decode_jmp`; it is the move of `pc` to the register by definition. -/
theorem jumpThroughRegister : Obligations.JumpThroughRegister :=
  ⟨fun _ _ => decode_jmp, fun _ _ => rfl⟩

/-! ## The link register: JSR, JSRR and TRAP -/

/-- Linking through R7 and moving `pc`, from a state `u` in which reads have at most taken console input since `s`. -/
theorem linkedTo_setReg_setPc {s u : State} (hu : u = { s with cin := u.cin }) (link target : Word) :
    LinkedTo s ((u.setReg linkReg link).setPc target) link := by
  rw [hu]
  exact ⟨State.reg_setReg_same _ linkReg link, fun r hr => State.reg_setReg_other _ link hr, rfl, rfl, rfl, rfl, rfl, rfl⟩

/-- Settles O29: bit 11 set selects the form; the target by `toNat_pcRelative`. -/
theorem jumpToSubroutine : Obligations.JumpToSubroutine := by
  refine ⟨fun P ir hop hbit => ?_, fun offset11 s => ?_⟩
  · rw [decode_jsr hop, hbit]
    rfl
  · exact ⟨_, rfl, s.toNat_pcRelative (by decide) offset11, linkedTo_setReg_setPc rfl s.pc _, rfl⟩

/-- Settles O30: bit 11 clear selects the form; the target is read before the link register is written. -/
theorem jumpToSubroutineRegister : Obligations.JumpToSubroutineRegister := by
  refine ⟨fun P ir hop hbit => ?_, fun baseR s => ?_⟩
  · rw [decode_jsr hop, hbit]
    rfl
  · exact ⟨_, rfl, rfl, linkedTo_setReg_setPc rfl s.pc _, rfl⟩

/-- Every entry of the default vector table is a plain cell: the devices stand at 0xFE00 and above (D3). -/
theorem vectorTablePlain_default : VectorTablePlain Params.default := by
  intro a ha
  rw [isDeviceAddr_eq_false_iff]
  refine ⟨?_, ?_, ?_, ?_⟩ <;> rintro rfl <;> revert ha <;> decide

/-- Settles O31: the vector's low byte selects the form; the entry read is plain where the table is. -/
theorem trapThroughVectorTable : Obligations.TrapThroughVectorTable := by
  refine ⟨fun P ir hop hvector => ?_, fun vector s => ?_, vectorTablePlain_default⟩
  · rw [decode_trap hop]
    exact if_neg hvector
  · have hentry : (zext vector : Word).toNat = vector.toNat := toNat_zext (by decide) vector
    refine ⟨zext vector, _, hentry, congrArg Host.Outcome.next (s.enterTrap_eq _), rfl,
      linkedTo_setReg_setPc (s.memRead_frame _) s.pc _, rfl, fun hplain => ?_⟩
    have hread := State.memRead_plain (hplain (zext vector) (by rw [hentry]; exact vector.isLt))
    rw [hread]
    exact ⟨rfl, rfl⟩

/-- The byte delivered into R0 keeps its number (R182, D7). -/
theorem State.toNat_reg_zero_setReg_charReg (s : State) (b : Byte) :
    ((s.setReg charReg (charWord b)).reg 0).toNat = b.toNat :=
  (congrArg BitVec.toNat (s.reg_setReg_same charReg (charWord b))).trans (toNat_charWord b)

/-- Settles O32: the vector's low byte selects the form; with input waiting `execTrapGetc_cons` says what happens. -/
theorem trapGetcTakesOneByte : Obligations.TrapGetcTakesOneByte := by
  refine ⟨fun P ir hop hvector => ?_, fun s b rest hcin => ?_⟩
  · rw [decode_trap hop]
    exact if_pos hvector
  · exact ⟨_, execTrapGetc_cons hcin, State.toNat_reg_zero_setReg_charReg _ b,
      fun r hr => State.reg_setReg_other _ _ hr, rfl, rfl, rfl, rfl, rfl, rfl, rfl, rfl⟩

end Sys2Proof.Machine
end

section
/-! PROOFS. Reset (10_state.md R44), and the step in the classes of states of R131 (40_instruction_cycle.md R120, R129):
running, held, and at an end. -/

namespace Sys2Proof.Machine

/-! ## Reset -/

theorem State.getLsbD_create_psr (P : Params) (k : Nat) : (State.create P).psr.getLsbD k = decide (k = P.psrZ.val) := by
  have hlt : P.psrZ.val < 16 := P.psrZ.isLt.trans (by decide)
  rw [State.create, ← BitVec.twoPow_eq, BitVec.getLsbD_twoPow]
  simp [hlt, eq_comm]

theorem State.create_rawRead (P : Params) (a : Word) : (State.create P).rawRead a = if a = P.mcrAddr then 0x8000 else 0 := by
  rw [State.rawRead, State.create_params]
  refine (Memory.readCell_nil a).trans ?_
  simp only [resetCell, BitVec.toNat_inj]
  rfl

/-- Settles O37: field by field; the cells by `create_rawRead`. -/
theorem resetLeaves : Obligations.ResetLeaves :=
  ⟨fun P => ⟨State.create_reg P, rfl, State.getLsbD_create_psr P, State.create_rawRead P, rfl, rfl, rfl, rfl, rfl⟩,
    rfl, rfl, State.create_rawRead _ _⟩

theorem State.create_inv (P : Params) : (State.create P).Inv := by
  have hmask : ∀ p : Fin 3, (1#16 <<< p.val) = (flagMask p).setWidth 16 := by decide
  exact ⟨.inr (.inl (hmask P.psrZ)), Memory.wf_nil⟩

/-- Settles O38: `psr` is the mask of Z, and the memory lists nothing. -/
theorem resetMeetsInvariant : Obligations.ResetMeetsInvariant := ⟨State.create_inv, State.create_inv _⟩

/-! ## A running state -/

theorem step_running {s : State} (h : s.Running) :
    step s = exec s.environmentMove.nextInstr s.environmentMove.fetch.2 :=
  coreStep_running (s := s.environmentMove) h

theorem step_final {s : State} (h : s.Final) : step s = .fault .halted :=
  coreStep_final (s := s.environmentMove) h

/-- At a plain address the word is the cell's, and only `pc` moves before the instruction executes (R122, R124). -/
theorem step_running_plain {s : State} (h : s.Running) (hpc : isDeviceAddr s.params s.pc = false) :
    step s = exec (decode s.params (s.rawRead s.pc)) (s.environmentMove.setPc (s.pc + 1)) := by
  rw [step_running h, State.nextInstr, State.fetch_plain (s := s.environmentMove) hpc]
  rfl

/-- Settles O41: `step_running`, and the round trip of the decoder where the cell holds an encoded instruction. -/
theorem stepRunsDecodedInstruction : Obligations.StepRunsDecodedInstruction := by
  refine fun s hrun => ⟨step_running hrun, fun i hwf hpc hcell => ?_⟩
  rw [step_running_plain hrun hpc, hcell, decodeOfEncode _ i hwf]
  rfl

/-! ## A held state (R129) -/

theorem State.memRead_of_cin_nil {s : State} (h : s.cin = []) (a : Word) : (s.memRead a).2 = s := by
  rcases s.memRead_cases a with hread | ⟨-, b, rest, hcin, -⟩
  · exact hread
  · simp [h] at hcin

/-- The hold puts `pc` back to where the fetch found it. -/
theorem coreStep_held {s : State} (h : s.Held) : coreStep s = .next s := by
  obtain ⟨hrun, hinstr, hcin⟩ := h
  have hfetch : s.fetch.2 = s.setPc (s.pc + 1) := by rw [s.fetch_eq, State.memRead_of_cin_nil hcin]
  rw [coreStep_running hrun, hinstr, hfetch]
  exact (execTrapGetc_nil (s := s.setPc (s.pc + 1)) hcin).trans (congrArg _ s.hold_setPc_add_one)

theorem step_held {s : State} (h : s.environmentMove.Held) : step s = .next s.environmentMove :=
  coreStep_held h

/-- Settles O42: each class has its answer, and every state is in one of them. -/
theorem stepIsEnabledUnlessRunEnded : Obligations.StepIsEnabledUnlessRunEnded := by
  refine fun s => ⟨step_faulted, step_final, fun hrun => ?_, step_held, s.faulted_or_final_or_running⟩
  obtain ⟨t, ht, -⟩ := exec_effect s.environmentMove.nextInstr s.environmentMove.fetch.2
  exact ⟨t, (step_running hrun).trans ht⟩

end Sys2Proof.Machine
end

section
/-! PROOFS. Executing from device addresses (40_instruction_cycle.md R123): the word each gives and what it decodes to, never a
TRAP; so a held core waits at a plain address, and completes when a byte has arrived (R129). -/

namespace Sys2Proof.Machine

/-! ## The words of the devices -/

/-- A character has zeros in bits 15:8. -/
theorem extractLsb'_charWord (b : Byte) {start len : Nat} (h : 8 ≤ start) : (charWord b).extractLsb' start len = 0#len := by
  apply BitVec.eq_of_getLsbD_eq
  intro k hk
  rw [BitVec.getLsbD_extractLsb', charWord, BitVec.getLsbD_setWidth, BitVec.getLsbD_of_ge b _ (by omega)]
  simp

theorem opcodeField_zero : opcodeField 0 = 0 := by decide

/-- A device gives a word of the opcode number 0 or that of the ready mask. -/
theorem State.opcodeField_memRead_device {s : State} {a : Word} (h : isDeviceAddr s.params a = true) :
    opcodeField (s.memRead a).1 = 0 ∨ opcodeField (s.memRead a).1 = opcodeField s.params.readyMask := by
  rcases (isDeviceAddr_iff _ a).1 h with rfl | rfl | rfl | rfl
  · rw [s.memRead_kbsr]
    split
    · exact .inl opcodeField_zero
    · exact .inr rfl
  · rcases hcin : s.cin with _ | ⟨b, rest⟩
    · rw [State.memRead_kbdr_nil hcin]
      exact .inl opcodeField_zero
    · rw [State.memRead_kbdr_cons hcin]
      exact .inl (extractLsb'_charWord b (by decide))
  · rw [s.memRead_dsr]
    exact .inr rfl
  · rw [s.memRead_ddr]
    exact .inl opcodeField_zero

/-- No fetch from a device address gives a TRAP (R123): neither number is `OP_TRAP`. -/
theorem State.nextInstr_opcode_of_device {s : State} (h : isDeviceAddr s.params s.pc = true) :
    s.nextInstr.opcode ≠ .trap := by
  intro htrap
  rw [State.nextInstr, opcode_decode, Opcode.ofBits_eq_iff] at htrap
  obtain ⟨hzero, hready⟩ := s.params.no_device_trap
  rcases State.opcodeField_memRead_device h with hword | hword
  · exact hzero (htrap.symm.trans hword)
  · exact hready (hword.symm.trans htrap)

/-- Under the default number of BR the word 0 is a BR on no flag. -/
theorem decode_zero {P : Params} (h : P.opBr = 0b0000) : decode P 0 = .br 0 0 := by
  rw [decode_br (by rw [h]; decide)]
  decide

/-- Under the default number of BR a character is a BR on no flag. -/
theorem decode_charWord {P : Params} (h : P.opBr = 0b0000) (b : Byte) :
    decode P (charWord b) = .br 0 (offset9Field (charWord b)) := by
  rw [decode_br (by rw [h]; exact extractLsb'_charWord b (by decide)), nzpField, extractLsb'_charWord b (by decide)]
  rfl

/-- The default ready mask is an RTI. -/
theorem decode_readyMask {P : Params} (h : P.readyMask = 0x8000) : decode P P.readyMask = .rti :=
  decode_rti (by rw [h]; decide)

/-- A fetch in terms of the read that it makes. -/
theorem State.fetch_of_memRead {s : State} {a w : Word} {u : State} (hpc : s.pc = a) (h : s.memRead a = (w, u)) :
    s.fetch.1 = w ∧ s.fetch.2.cin = u.cin ∧ s.nextInstr = decode s.params w := by
  rw [State.nextInstr, s.fetch_eq, hpc, h]
  exact ⟨rfl, rfl, rfl⟩

/-- What the defaults make of a fetch from each device address. -/
theorem State.nextInstr_default_device {s : State} (hready : s.params.readyMask = 0x8000) (hbr : s.params.opBr = 0b0000) :
    (s.pc = s.params.kbsrAddr → s.nextInstr = (if s.cin = [] then .br 0 0 else .rti)) ∧
      (s.pc = s.params.kbdrAddr → ∃ offset9, s.nextInstr = .br 0 offset9) ∧
      (s.pc = s.params.dsrAddr → s.nextInstr = .rti) ∧ (s.pc = s.params.ddrAddr → s.nextInstr = .br 0 0) := by
  refine ⟨fun hpc => ?_, fun hpc => ?_, fun hpc => ?_, fun hpc => ?_⟩
  · rw [(State.fetch_of_memRead hpc s.memRead_kbsr).2.2]
    split
    · exact decode_zero hbr
    · exact decode_readyMask hready
  · rcases hcin : s.cin with _ | ⟨b, rest⟩
    · rw [(State.fetch_of_memRead hpc (State.memRead_kbdr_nil hcin)).2.2]
      exact ⟨0, decode_zero hbr⟩
    · rw [(State.fetch_of_memRead hpc (State.memRead_kbdr_cons hcin)).2.2]
      exact ⟨_, decode_charWord hbr b⟩
  · rw [(State.fetch_of_memRead hpc s.memRead_dsr).2.2]
    exact decode_readyMask hready
  · rw [(State.fetch_of_memRead hpc s.memRead_ddr).2.2]
    exact decode_zero hbr

/-- Settles O52: the arbiter's rule for each device address, the MCR as a plain cell, and the words decoded. -/
theorem fetchFromDevices : Obligations.FetchFromDevices := by
  refine fun s => ⟨fun hpc => ?_, fun hpc => ?_, fun hpc => ?_, fun hpc => ?_, fun hpc hrun => ?_, fun hdevice => ?_,
    State.nextInstr_default_device⟩
  · obtain ⟨hword, hcin, -⟩ := State.fetch_of_memRead hpc s.memRead_kbsr
    exact ⟨hword, hcin⟩
  · rcases hin : s.cin with _ | ⟨b, rest⟩
    · obtain ⟨hword, hcin, -⟩ := State.fetch_of_memRead hpc (State.memRead_kbdr_nil hin)
      rw [hword, hcin, hin]
      exact ⟨rfl, rfl⟩
    · obtain ⟨hword, hcin, -⟩ := State.fetch_of_memRead hpc (State.memRead_kbdr_cons hin)
      rw [hword, hcin]
      exact ⟨toNat_charWord b, rfl⟩
  · obtain ⟨hword, hcin, -⟩ := State.fetch_of_memRead hpc s.memRead_dsr
    exact ⟨hword, hcin⟩
  · obtain ⟨hword, hcin, -⟩ := State.fetch_of_memRead hpc s.memRead_ddr
    exact ⟨hword, hcin⟩
  · obtain ⟨hword, hcin, -⟩ := State.fetch_of_memRead hpc (State.memRead_plain (isDeviceAddr_mcrAddr s.params))
    exact ⟨hword ▸ hrun, hcin⟩
  · have hop := State.nextInstr_opcode_of_device hdevice
    exact ⟨fun h => hop (h ▸ rfl), fun _ h => hop (h ▸ rfl)⟩

/-! ## The hold ends -/

theorem State.environmentMove_of_arrivals_nil {s : State} (h : s.arrivals = []) : s.environmentMove = s := by
  cases s
  simp_all [State.environmentMove, State.arriving]

/-- The fetch of a held core is from a plain cell. -/
theorem State.Held.plain {s : State} (h : s.Held) : isDeviceAddr s.params s.pc = false := by
  obtain ⟨-, hinstr, -⟩ := h
  by_contra hdevice
  exact State.nextInstr_opcode_of_device (Bool.eq_true_of_not_eq_false hdevice) (by rw [hinstr]; rfl)

/-- Settles O33: `step_held`, and for the byte that arrives the same plain fetch and `execTrapGetc_cons`. -/
theorem heldCoreWaits : Obligations.HeldCoreWaits := by
  refine fun s => ⟨step_held, fun harrivals hheld => ?_, fun b hheld harrivals => ?_⟩
  · have hmove := State.environmentMove_of_arrivals_nil harrivals
    rw [step_held (by rwa [hmove]), hmove]
  · have hplain := hheld.plain
    obtain ⟨hrun, hinstr, hcin⟩ := hheld
    have hdecode : decode s.params (s.rawRead s.pc) = .trapGetc := by
      rwa [State.nextInstr, State.fetch_plain hplain] at hinstr
    have hbyte : (s.environmentMove.setPc (s.pc + 1)).cin = [b] := by
      simp [hcin, State.arriving, harrivals]
    have hstep : step s = execTrapGetc (s.environmentMove.setPc (s.pc + 1)) := by
      rw [step_running_plain hrun hplain, hdecode]
      rfl
    exact ⟨_, hstep.trans (execTrapGetc_cons hbyte), State.toNat_reg_zero_setReg_charReg _ b, rfl, rfl, rfl⟩

end Sys2Proof.Machine
end

section
/-! PROOFS. The loader's words (70_reset_and_hazards.md R217, R218): the image as big-endian pairs, and where the copy puts
them. -/

namespace Sys2Proof.Machine

/-- Word `k` of an image is the pair of bytes `2k` and `2k + 1`. -/
theorem getElem?_wordsOfBytes (rest : List Byte) (k : Nat) {hi lo : Byte} (hhi : rest[2 * k]? = some hi)
    (hlo : rest[2 * k + 1]? = some lo) : (wordsOfBytes rest)[k]? = some (wordOfBytes hi lo) := by
  induction k generalizing rest with
  | zero =>
    match rest with
    | [] => cases hhi
    | [_] => cases hlo
    | _ :: _ :: rest =>
      cases hhi
      cases hlo
      rfl
  | succ k ih =>
    match rest with
    | [] => cases hhi
    | [_] => cases hlo
    | _ :: _ :: rest => exact ih rest hhi hlo

/-- Settles O54: the length by `length_wordsOfBytes`, the words by `getElem?_wordsOfBytes`. -/
theorem imageWordsAreBigEndian : Obligations.ImageWordsAreBigEndian := fun rest =>
  ⟨length_wordsOfBytes rest, fun k hi lo hhi hlo =>
    ⟨_, getElem?_wordsOfBytes rest k hhi hlo, toNat_wordOfBytes hi lo⟩⟩

/-! ## The copy -/

/-- Below the top of memory the next address is the number plus one. -/
theorem toNat_add_one {a : Word} (h : a.toNat + 1 < 65536) : (a + 1).toNat = a.toNat + 1 :=
  (BitVec.toNat_add a 1).trans (Nat.mod_eq_of_lt h)

/-- A copy that does not wrap puts word `k` at its start plus `k`. -/
theorem State.rawRead_rawWrites_at (s : State) (a : Word) (ws : List Word) (h : a.toNat + ws.length ≤ 65536) {k : Nat}
    {w b : Word} (hw : ws[k]? = some w) (hb : b.toNat = a.toNat + k) : (s.rawWrites a ws).rawRead b = w := by
  induction ws generalizing s a k with
  | nil => cases hw
  | cons v ws ih =>
    have hk : k < (v :: ws).length := (List.getElem?_eq_some_iff.1 hw).1
    rw [List.length_cons] at h hk
    cases k with
    | zero =>
      cases hw
      obtain rfl : b = a := BitVec.eq_of_toNat_eq hb
      rcases Nat.eq_zero_or_pos ws.length with h0 | h0
      · rw [List.length_eq_zero_iff.1 h0]
        exact s.rawWrite_rawRead_same b w
      · have hnext := toNat_add_one (a := b) (by omega)
        rw [State.rawWrites, State.rawRead_rawWrites_below _ _ _ (by omega) (by omega)]
        exact s.rawWrite_rawRead_same b w
    | succ k =>
      have hnext := toNat_add_one (a := a) (by omega)
      exact ih (s.rawWrite a v) (a + 1) (by omega) hw (by omega)

/-- A copy leaves the cells from its end upward alone. -/
theorem State.rawRead_rawWrites_above (s : State) (a : Word) (ws : List Word) {b : Word}
    (hb : a.toNat + ws.length ≤ b.toNat) : (s.rawWrites a ws).rawRead b = s.rawRead b := by
  induction ws generalizing s a with
  | nil => rfl
  | cons v ws ih =>
    rw [List.length_cons] at hb
    have hnext := toNat_add_one (a := a) (by omega)
    rw [State.rawWrites, ih _ _ (by omega)]
    exact s.rawWrite_rawRead_other v fun e => by rw [e] at hb; omega

/-- Settles O55: the answer by `load_of_fits`, the cells by the three rules of the copy. -/
theorem loadRoundTrip : Obligations.LoadRoundTrip := by
  refine fun s hi lo rest => ⟨wordOfBytes hi lo, toNat_wordOfBytes hi lo, fun hfits => ?_⟩
  have hload := s.load_of_fits (by rwa [← toNat_wordOfBytes])
  rw [← length_wordsOfBytes] at hfits ⊢
  refine ⟨_, hload, fun k w a => s.rawRead_rawWrites_at _ _ hfits, fun a ha => ?_, ?_, rfl,
    fun hwf => State.rawWrites_memWf hwf _ _⟩
  · rcases ha with hbelow | habove
    · exact s.rawRead_rawWrites_below _ _ hfits hbelow
    · exact s.rawRead_rawWrites_above _ _ habove
  · rw [s.rawWrites_frame]
    rfl

end Sys2Proof.Machine
end

section
/-! PROOFS. The host (70_reset_and_hazards.md R231): what each interaction answers, what it can do to the machine, and
several machines beside one another (R211, 60_exceptions.md R203). -/

namespace Sys2Proof.Machine

/-! ## The loader's answer -/

theorem State.load_too_short (s : State) {bytes : List Byte} (h : bytes.length < 2) :
    s.load bytes = .refused .imageTooShort := by
  match bytes with
  | [] | [_] => rfl
  | _ :: _ :: _ => simp at h

/-- A buffer with an origin is loaded or found too large; either way nothing but memory and `pc` can have changed (R218,
R220). -/
theorem State.load_answers (s : State) {bytes : List Byte} (h : 2 ≤ bytes.length) :
    ∃ r t, s.load bytes = .next (r, t) ∧ t = { s with mem := t.mem, pc := t.pc } := by
  match bytes with
  | [] | [_] => simp at h
  | hi :: lo :: rest =>
    rcases Nat.lt_or_ge 65536 (hi.toNat * 256 + lo.toNat + rest.length / 2) with hlarge | hfits
    · exact ⟨_, _, s.load_of_too_large hlarge, rfl⟩
    · refine ⟨_, _, s.load_of_fits hfits, ?_⟩
      rw [s.rawWrites_frame]
      rfl

theorem State.load_frame {s t : State} {bytes : List Byte} {r : LoadResult} (h : s.load bytes = .next (r, t)) :
    t = { s with mem := t.mem, pc := t.pc } := by
  rcases Nat.lt_or_ge bytes.length 2 with hshort | hlong
  · rw [s.load_too_short hshort] at h
    cases h
  · obtain ⟨r', t', hload, hframe⟩ := s.load_answers hlong
    rw [hload] at h
    cases h
    exact hframe

/-! ## One session -/

section
variable {t : Session}

theorem Session.loadWith_running (h : t.running = true) (call : Host.Outcome (LoadResult × State) Fault Refusal) :
    t.loadWith call = .refused .runInProgress :=
  if_pos h

theorem Session.loadWith_next (h : t.running = false) (r : LoadResult) (s : State) :
    t.loadWith (.next (r, s)) = .next (.loaded r, { machine := s, running := false }) := by
  simp [Session.loadWith, h]

theorem Session.loadWith_refused (h : t.running = false) (r : Refusal) : t.loadWith (.refused r) = .refused r := by
  simp [Session.loadWith, h]

theorem Session.startRun_running (h : t.running = true) : t.startRun = .refused .runInProgress :=
  if_pos h

theorem Session.startRun_idle (h : t.running = false) (hfault : t.machine.fault = none) :
    t.startRun = .next (.done, { machine := t.machine, running := true }) := by
  simp [Session.startRun, h, hfault]

theorem Session.startRun_faulted (h : t.running = false) (hfault : t.machine.Faulted) :
    t.startRun = .refused .runAfterFault := by
  simp [Session.startRun, h, hfault]

theorem Session.coreStep_idle (h : t.running = false) : t.coreStep = .refused .noRunInProgress := by
  simp [Session.coreStep, h]

theorem Session.coreStep_next (h : t.running = true) {s : State} (hstep : step t.machine = .next s) :
    t.coreStep = .next (.done, { machine := s, running := true }) := by
  rw [Session.coreStep, if_pos h, hstep]

theorem Session.coreStep_halted (h : t.running = true) (hstep : step t.machine = .fault .halted) :
    t.coreStep = .next (.runSuccess, { machine := t.machine, running := false }) := by
  rw [Session.coreStep, if_pos h, hstep]

theorem Session.coreStep_fault (h : t.running = true) (hstep : step t.machine = .fault .unimplementedOpcode) :
    t.coreStep = .next (.runUnimplementedOpcode, { machine := t.machine, running := false }) := by
  rw [Session.coreStep, if_pos h, hstep]

end

/-- Settles O57: the answer of each interaction, outside a run, during one, and always. -/
theorem hostInteractionsAreGuarded : Obligations.HostInteractionsAreGuarded := by
  refine ⟨fun t hidle => ⟨Session.coreStep_idle hidle, Session.startRun_idle hidle, Session.startRun_faulted hidle,
      fun bytes hshort => ?_, fun bytes hlong => ?_, ?_, fun _ => rfl⟩,
    fun t hrun => ⟨Session.startRun_running hrun, fun _ => Session.loadWith_running hrun _,
      fun _ => Session.loadWith_running hrun _, fun _ => Session.coreStep_next hrun, Session.coreStep_halted hrun,
      Session.coreStep_fault hrun⟩,
    fun _ _ => ⟨rfl, rfl⟩⟩
  · rw [Session.interact, t.machine.load_too_short hshort, Session.loadWith_refused hidle]
  · obtain ⟨r, s, hload, -⟩ := t.machine.load_answers hlong
    refine ⟨r, s, hload, ?_⟩
    rw [Session.interact, hload, Session.loadWith_next hidle]
  · rw [Session.interact, State.loadFromSource, Session.loadWith_next hidle, ← hidle]

/-! ## What an interaction can do to the machine -/

section
variable {t t' : Session} {r : Reply}

theorem Session.machine_of_loadWith {call : Host.Outcome (LoadResult × State) Fault Refusal}
    (h : t.loadWith call = .next (r, t')) : ∃ result, call = .next (result, t'.machine) := by
  cases hrun : t.running
  · match call with
    | .next (result, s) =>
      rw [Session.loadWith_next hrun] at h
      cases h
      exact ⟨result, rfl⟩
    | .fault f | .refused f => simp [Session.loadWith, hrun] at h
  · rw [Session.loadWith_running hrun] at h
    cases h

theorem Session.machine_of_startRun (h : t.startRun = .next (r, t')) : t'.machine = t.machine := by
  cases hrun : t.running
  · rcases hfault : t.machine.fault with _ | ⟨⟨⟩⟩
    · rw [Session.startRun_idle hrun hfault] at h
      cases h
      rfl
    · rw [Session.startRun_faulted hrun hfault] at h
      cases h
  · rw [Session.startRun_running hrun] at h
    cases h

theorem Session.machine_of_coreStep (h : t.coreStep = .next (r, t')) :
    t'.machine = t.machine ∨ step t.machine = .next t'.machine := by
  cases hrun : t.running
  · rw [Session.coreStep_idle hrun] at h
    cases h
  · rcases hstep : step t.machine with s | ⟨_ | _⟩ | f
    · rw [Session.coreStep_next hrun hstep] at h
      cases h
      exact .inr rfl
    · rw [Session.coreStep_halted hrun hstep] at h
      cases h
      exact .inl rfl
    · rw [Session.coreStep_fault hrun hstep] at h
      cases h
      exact .inl rfl
    · simp [Session.coreStep, hrun, hstep] at h

/-- Everything that an interaction which answers can have done to the machine: nothing, a load, a step, or one byte of
input. -/
theorem Session.machine_of_interact {i : Interaction} (h : t.interact i = .next (r, t')) :
    t'.machine = t.machine ∨ (∃ bytes result, t.machine.load bytes = .next (result, t'.machine)) ∨
      step t.machine = .next t'.machine ∨ ∃ b, t'.machine = t.machine.consoleInput b := by
  cases i with
  | load bytes =>
    obtain ⟨result, hload⟩ := Session.machine_of_loadWith h
    exact .inr (.inl ⟨bytes, result, hload⟩)
  | loadFromSource source =>
    obtain ⟨result, hload⟩ := Session.machine_of_loadWith h
    cases source with
    | none => exact .inl (Prod.mk.inj (Host.Outcome.next.inj hload)).2.symm
    | some bytes => exact .inr (.inl ⟨bytes, result, hload⟩)
  | run => exact .inl (Session.machine_of_startRun h)
  | consoleInput b =>
    cases h
    exact .inr (.inr (.inr ⟨b, rfl⟩))
  | consoleOutput =>
    cases h
    exact .inl rfl
  | coreStep => exact (Session.machine_of_coreStep h).imp_right fun hstep => .inr (.inl hstep)

theorem Session.interact_params {i : Interaction} (h : t.interact i = .next (r, t')) :
    t'.machine.params = t.machine.params := by
  rcases Session.machine_of_interact h with h | ⟨bytes, result, h⟩ | h | ⟨b, h⟩
  · rw [h]
  · rw [State.load_frame h]
  · rw [(step_effect h).params, State.fetch_params, State.environmentMove_params]
  · rw [h, State.consoleInput_params]

/-- A latch that is set stays set: no step starts from it, and nothing else touches it (R211). -/
theorem Session.interact_faulted {i : Interaction} (h : t.interact i = .next (r, t')) (hfault : t.machine.Faulted) :
    t'.machine.Faulted := by
  rcases Session.machine_of_interact h with h | ⟨bytes, result, h⟩ | h | ⟨b, h⟩
  · rwa [h]
  · rw [State.Faulted, State.load_frame h]
    exact hfault
  · rw [step_faulted hfault] at h
    cases h
  · rwa [h, State.Faulted, State.consoleInput_fault]

end

/-! ## Several machines -/

/-- A move on machine `n` that answers is the interaction with that machine, which takes its place. -/
theorem World.move_on_iff {w w' : World} {n : Nat} {i : Interaction} {r : Reply} :
    w.move (.on n i) = .next (r, w') ↔ ∃ t t', w.machines[n]? = some t ∧ t.interact i = .next (r, t') ∧
      w' = { w with machines := w.machines.set n t' } := by
  constructor
  · intro h
    simp only [World.move] at h
    split at h
    · cases h
    next t ht =>
      split at h
      next hinteract =>
        cases h
        exact ⟨t, _, ht, hinteract, rfl⟩
      · cases h
      · cases h
  · rintro ⟨t, t', ht, hinteract, rfl⟩
    simp only [World.move, ht, hinteract]

/-- Settles O58: the new machine stands at the end, and `World.move_on_iff` is what a move on machine `n` depends on and
changes. -/
theorem machinesAreIndependent : Obligations.MachinesAreIndependent := by
  refine ⟨fun w => ⟨_, rfl, List.getElem?_concat_length .., List.length_append .., fun m hm => List.getElem?_append_left hm⟩,
    fun w w' n i r h => ?_, fun v w v' n i r hsame h => ?_, fun t t' i r => Session.interact_faulted⟩
  · obtain ⟨t, t', -, -, rfl⟩ := World.move_on_iff.1 h
    exact ⟨List.length_set, fun m hm => List.getElem?_set_ne hm.symm⟩
  · obtain ⟨t, t', ht, hinteract, rfl⟩ := World.move_on_iff.1 h
    have ht' : w.machines[n]? = some t := hsame ▸ ht
    refine ⟨_, World.move_on_iff.2 ⟨t, t', ht', hinteract, rfl⟩, ?_⟩
    have hv : n < v.machines.length := (List.getElem?_eq_some_iff.1 ht).1
    have hw : n < w.machines.length := (List.getElem?_eq_some_iff.1 ht').1
    rw [List.getElem?_set_self hw, List.getElem?_set_self hv]

/-- Settles O39: the step by its effect, the interactions by `Session.interact_params`, the world machine by machine. -/
theorem parametersNeverChange : Obligations.ParametersNeverChange := by
  refine ⟨fun s t h => ?_, fun t t' i r => Session.interact_params, fun w w' m r h hall => ?_⟩
  · rw [(step_effect h).params, State.fetch_params, State.environmentMove_params]
  · cases m with
    | create =>
      cases h
      refine ⟨rfl, fun t ht => ?_⟩
      rcases List.mem_append.1 ht with ht | ht
      · exact hall t ht
      · rw [List.mem_singleton.1 ht]
        rfl
    | on n i =>
      obtain ⟨t, t', ht, hinteract, rfl⟩ := World.move_on_iff.1 h
      refine ⟨rfl, fun u hu => ?_⟩
      rcases List.mem_or_eq_of_mem_set hu with hu | rfl
      · exact hall u hu
      · rw [Session.interact_params hinteract]
        exact hall t (List.mem_of_getElem? ht)

end Sys2Proof.Machine
end

section
/-! PROOFS. A store and the step after it: the store that clears the run bit is the last (40_instruction_cycle.md R121), and a
store to the next cell is what executes next (20_memory.md R75). -/

namespace Sys2Proof.Machine

/-- The instruction is a ST, STI or STR of the register. -/
abbrev StoresReg (i : Instr) (sr : Reg) : Prop :=
  (∃ offset9, i = .st sr offset9) ∨ (∃ offset9, i = .sti sr offset9) ∨ ∃ baseR offset6, i = .str sr baseR offset6

/-- A ST, STI or STR writes its register to its store address, after at most the pointer read. -/
theorem exec_store {i : Instr} {s : State} {sr : Reg} {a : Word} (ha : i.storeAddress s = some a)
    (hi : StoresReg i sr) :
    ∃ u, ReadsLeave s u ∧ exec i s = .next (u.memWrite a (s.reg sr)) := by
  rcases hi with ⟨offset9, rfl⟩ | ⟨offset9, rfl⟩ | ⟨baseR, offset6, rfl⟩ <;> cases ha
  · exact ⟨s, .refl s, rfl⟩
  · exact ⟨_, (ReadsLeave.refl s).memRead _, rfl⟩
  · exact ⟨s, .refl s, rfl⟩

/-- At a plain address it completes with the whole word in the cell, every other cell, `pc`, the latch and the parameters as
before. -/
theorem exec_store_plain {i : Instr} {s : State} {sr : Reg} {a : Word} (ha : i.storeAddress s = some a)
    (hi : StoresReg i sr) (hplain : isDeviceAddr s.params a = false) :
    ∃ t, exec i s = .next t ∧ (∀ b, t.rawRead b = if b = a then s.reg sr else s.rawRead b) ∧ t.pc = s.pc ∧
      t.fault = s.fault ∧ t.params = s.params := by
  obtain ⟨u, ⟨rest, -, rfl⟩, hexec⟩ := exec_store ha hi
  refine ⟨_, hexec, fun b => ?_, State.memWrite_pc .., State.memWrite_fault .., State.memWrite_params ..⟩
  rw [State.memWrite_plain (s := { s with cin := rest }) _ hplain]
  exact State.rawWrite_rawRead ..

/-- Settles O43: the final state answers `halted`; the store by `exec_store_plain` leaves one. -/
theorem haltTestPrecedesFetch : Obligations.HaltTestPrecedesFetch := by
  refine ⟨fun _ => rfl, fun t hrun hfault hbit => ?_, fun i s sr ha hfault hi hbit => ?_⟩
  · have hstep := step_final (s := t.machine) ⟨hfault, hbit⟩
    exact ⟨hstep, Session.coreStep_halted hrun hstep⟩
  · obtain ⟨t, hexec, hcell, hpc, htfault, hparams⟩ := exec_store_plain ha hi (isDeviceAddr_mcrAddr s.params)
    have hmcr : t.rawRead s.params.mcrAddr = s.reg sr := (hcell _).trans (if_pos rfl)
    refine ⟨t, hexec, hmcr, hpc, step_final ⟨htfault.trans hfault, ?_⟩⟩
    rw [State.runBit, hparams, hmcr, hbit]

/-- Settles O53: the store leaves a running state with the word at `pc`, a plain cell, which the next fetch reads. -/
theorem storeIsSeenByNextFetch : Obligations.StoreIsSeenByNextFetch := by
  intro s sr hrun hi ha hplain hmcr
  have hparams : s.environmentMove.fetch.2.params = s.params := State.fetch_params _
  obtain ⟨t, hexec, hcell, hpc, hfault, htparams⟩ := exec_store_plain ha hi (hparams ▸ hplain)
  rw [State.fetch_pc, State.environmentMove_pc] at hpc
  rw [State.fetch_fault, State.environmentMove_fault] at hfault
  rw [hparams] at htparams
  have hword : t.rawRead (s.pc + 1) = s.reg sr := by
    rw [hcell, if_pos rfl, State.fetch_reg, State.reg_environmentMove]
  have htrun : t.Running := by
    refine ⟨hfault.trans hrun.1, ?_⟩
    rw [State.runBit, htparams, hcell, State.fetch_reg, State.reg_environmentMove, State.fetch_rawRead]
    split
    next heq => exact hmcr heq.symm
    next => exact hrun.2
  refine ⟨t, (step_running hrun).trans hexec, hpc, ?_⟩
  rw [step_running_plain htrun (by rwa [htparams, hpc]), htparams, hpc, hword, BitVec.add_assoc]
  rfl

end Sys2Proof.Machine
end

section
/-! PROOFS. Placing a word (log 16): the placed address is plain and is not the MCR, so the next step fetches the word. -/

namespace Sys2Proof.Machine

theorem State.isSpecialAddr_iff (s : State) (a : Word) : s.isSpecialAddr a = true ↔
    a ∈ [s.params.kbsrAddr, s.params.kbdrAddr, s.params.dsrAddr, s.params.ddrAddr, s.params.mcrAddr] := by
  simp [State.isSpecialAddr, isDeviceAddr_iff, or_assoc]

/-- The first address of the search that is none of the five: six candidates cannot all be among them. -/
theorem State.isSpecialAddr_placeAddr (s : State) : s.isSpecialAddr s.placeAddr = false := by
  unfold State.placeAddr
  rcases hfind : List.find? (fun a => !s.isSpecialAddr a) [s.pc, 0x3000, 0x3001, 0x3002, 0x3003, 0x3004, 0x3005] with _ | a
  · have hall := List.find?_eq_none.1 hfind
    have hsub : [(0x3000 : Word), 0x3001, 0x3002, 0x3003, 0x3004, 0x3005] ⊆
        [s.params.kbsrAddr, s.params.kbdrAddr, s.params.dsrAddr, s.params.ddrAddr, s.params.mcrAddr] := fun a ha =>
      (s.isSpecialAddr_iff a).1 (by simpa using hall a (List.mem_cons_of_mem _ ha))
    have hlen := (List.subperm_of_subset (by decide) hsub).length_le
    simp at hlen
  · simpa using List.find?_some hfind

theorem State.placeAddr_plain (s : State) : isDeviceAddr s.params s.placeAddr = false ∧ s.placeAddr ≠ s.params.mcrAddr := by
  simpa [State.isSpecialAddr] using s.isSpecialAddr_placeAddr

/-- A state with a placed word is running. -/
theorem State.running_withFetchWord (s : State) (nbits w : Nat) : (s.withFetchWord nbits w).Running := by
  refine ⟨rfl, ?_⟩
  have hmcr : (s.withRunBit.rawWrite s.placeAddr (BitVec.ofNat 16 (w % 2 ^ nbits))).rawRead s.withRunBit.params.mcrAddr =
      s.withRunBit.rawRead s.withRunBit.params.mcrAddr :=
    State.rawWrite_rawRead_other _ _ (by rw [State.withRunBit_params]; exact s.placeAddr_plain.2.symm)
  exact (congrArg (·.getLsbD 15) hmcr).trans s.withRunBit_runBit

/-- The placed address holds the placed word. -/
theorem State.rawRead_withFetchWord (s : State) (nbits w : Nat) :
    (s.withFetchWord nbits w).rawRead s.placeAddr = BitVec.ofNat 16 (w % 2 ^ nbits) :=
  State.rawWrite_rawRead_same s.withRunBit s.placeAddr _

section
variable (s : State) (nbits w : Nat)

@[simp] theorem State.withFetchWord_pc : (s.withFetchWord nbits w).pc = s.placeAddr := rfl
@[simp] theorem State.withFetchWord_fault : (s.withFetchWord nbits w).fault = none := rfl
@[simp] theorem State.withFetchWord_x : (s.withFetchWord nbits w).x = s.x := by
  simp [State.withFetchWord]
@[simp] theorem State.withFetchWord_psr : (s.withFetchWord nbits w).psr = s.psr := by
  simp [State.withFetchWord]
@[simp] theorem State.withFetchWord_cin : (s.withFetchWord nbits w).cin = s.cin := by
  simp [State.withFetchWord]
@[simp] theorem State.withFetchWord_cout : (s.withFetchWord nbits w).cout = s.cout := by
  simp [State.withFetchWord]
@[simp] theorem State.withFetchWord_arrivals : (s.withFetchWord nbits w).arrivals = s.arrivals := by
  simp [State.withFetchWord]
@[simp] theorem State.withFetchWord_params : (s.withFetchWord nbits w).params = s.params := by
  simp [State.withFetchWord]

end

/-- Settles O59: the placed address is plain, so the step fetches the word that `withFetchWord` wrote there. -/
theorem placedWordRunsNext : Obligations.PlacedWordRunsNext := by
  intro s w hw
  have hword : (s.withFetchWord 16 w).rawRead s.placeAddr = BitVec.ofNat 16 w :=
    (s.rawRead_withFetchWord 16 w).trans (congrArg (BitVec.ofNat 16) (Nat.mod_eq_of_lt hw))
  refine ⟨(s.withFetchWord 16 w).environmentMove.setPc (s.placeAddr + 1), ?_, State.setPc_pc .., fun r => ?_, ?_, ?_, ?_, ?_⟩
  · rw [step_running_plain (s.running_withFetchWord 16 w) (by simpa using s.placeAddr_plain.1), State.withFetchWord_params,
      State.withFetchWord_pc, hword]
  · exact State.reg_eq_of_x_eq (by simp) r
  all_goals simp [State.arriving]

end Sys2Proof.Machine
end
